-- ==== Sys2Proof/Word.lean ====
section
/-! DEFINITION. The word types of the block: bytes, host words, pin identifiers, port addresses. -/
namespace Sys2Proof

/-- An 8-bit value: a colour channel, a port-state byte, a direction register (R8, R28, R29, R32). -/
abbrev Byte := BitVec 8

/-- A 32-bit host word: command, colour or result word (R73, R76, R77). -/
abbrev Word := BitVec 32

/-- The pin identifier as the host encoding carries it: 8 bits, unsigned (R75, decision D10). -/
abbrev PinId := BitVec 8

/-- A device handle IS the identifier it was built from (R31). -/
abbrev Handle := PinId

/-- A hardware port address: any type with decidable equality (R8). DESIGN CHOICE (log 2): the naturals. -/
abbrev PortAddr := Nat

end Sys2Proof
end

