-- ==== Sys2Proof/Config.lean ====
section
/-! DEFINITION. The implementation parameters of R8 as one record, and the free value every draw is taken from. -/
namespace Sys2Proof

/-- A pin resource: a port address and a mask that names one pin within that port's byte (R30). -/
structure PinRes where
  port : PortAddr
  mask : Byte
deriving DecidableEq, Repr

/-- The configuration of R8, fixed for the whole run. Only the three defaults the rule states are given
here (`OVH_MIN`, `MARGIN_US`, `LATCH_US`); every other parameter is OPEN and must be supplied.
`pins` is the graph of `resolve`: the identifiers that name a real pin, each with its resource. -/
structure Config where
  pins        : List (PinId × PinRes)
  fCpuHz      : Nat
  t0hCyc      : Nat
  t1hCyc      : Nat
  bitCyc      : Nat
  ovhMin      : Nat := 0
  ovhMax      : Nat
  delayOvhMax : Nat
  marginUs    : Nat := 1
  latchUs     : Nat := 50
deriving DecidableEq, Repr

/-- FREE VALUE (log 6): the number behind the k-th draw of a run (R11, R12). It has no body, so nothing can
be proved of it; `Config.drawWithin` brings it inside the bounds the rules state. -/
opaque Config.freeDraw : Nat → Nat

end Sys2Proof
end

