-- ==== Sys2Proof/Syntax.lean ====
section
/-! DEFINITION. The instruction set: the eleven rows of spec/opcode_table.json. -/
namespace Sys2Proof

/-- A colour: an ordered triple of 8-bit intensities, in construction order (R32). -/
structure Color where
  r : Byte
  g : Byte
  b : Byte
deriving DecidableEq, Repr

/-- The three host commands (format H, R74) and the eight micro-operations of the sequencer (format M, R78).
The host issues only the first three; the sequencer schedules only the other eight. -/
inductive Instr where
  | new (pin : PinId)
  | init (pin : PinId)
  | upload (pin : PinId) (colours : List Color)
  | emit0
  | emit1
  | margin
  | latch
  | resolve
  | dirset
  | drivelow
  | ret
deriving DecidableEq, Repr

end Sys2Proof
end

