-- ==== Sys2Proof/WellFormed.lean ====
section
/-! DEFINITION. Which instructions have an encoding. -/
namespace Sys2Proof

/-- An UPLOAD carries its number of colours in a 16-bit field, so at most 65535 of them (R75, decision D24).
Every other operand fills its field exactly. The block itself sets no limit on a buffer (R33): an UPLOAD that
is not well formed has no command word, and its meaning is the same as any other's. -/
def Instr.wf : Instr → Bool
  | .new _ => true
  | .init _ => true
  | .upload _ colours => colours.length < 65536
  | .emit0 => true
  | .emit1 => true
  | .margin => true
  | .latch => true
  | .resolve => true
  | .dirset => true
  | .drivelow => true
  | .ret => true

end Sys2Proof
end

