-- ==== Sys2Proof/Decode.lean ====
section
/-! DEFINITION. The decoders of the host words (formats H and C) and of the micro-operation code (format M),
and after them the encoder, written from the same tables (R73 to R80). -/
namespace Sys2Proof

/-! ### Fields of a host word (R73, R75, R76) -/

/-- Bits 31:24: the operation of a command word, the reserved byte of a colour word. -/
def Word.top (w : Word) : Byte := w.extractLsb' 24 8

/-- Bits 23:16 of a command word: the pin identifier. -/
def Word.pin (w : Word) : PinId := w.extractLsb' 16 8

/-- Bits 15:0 of a command word: the number of colour words that follow, unsigned. -/
def Word.cnt (w : Word) : Nat := (w.extractLsb' 0 16).toNat

/-- Format C: red, green, blue from bit 23 down, each taken as is (R75, R76). -/
def Word.colour (w : Word) : Color := ⟨w.extractLsb' 16 8, w.extractLsb' 8 8, w.extractLsb' 0 8⟩

/-! ### The host command decoder (R79) -/

/-- Why a command word is reserved (R79). -/
inductive ReservedKind where
  | opcode
  | count
  | colour
deriving DecidableEq, Repr

/-- The decoder's verdict on a stream of words (R79): the command and the words after it, or a rejection by name. -/
inductive Verdict where
  | command (i : Instr) (rest : List Word)
  | reserved (kind : ReservedKind)
  | incomplete
deriving DecidableEq, Repr

/-- Is one of the first `n` words, as far as they are there, a reserved colour word: `RSV != 0` (R76, R79)? -/
def reservedColour : Nat → List Word → Bool
  | 0, _ => false
  | _ + 1, [] => false
  | n + 1, w :: ws => if w.top = 0 then reservedColour n ws else true

/-- Are there fewer than `n` words (R79)? -/
def tooShort : Nat → List Word → Bool
  | 0, _ => false
  | _ + 1, [] => true
  | n + 1, _ :: ws => tooShort n ws

/-- The verdict on an UPLOAD from its count and the words after the command word. DEDUCED (log 10): of the two
rejections the reserved colour word comes first, in the order of R79's table. -/
def decodeUpload (pin : PinId) (n : Nat) (ws : List Word) : Verdict :=
  if reservedColour n ws then .reserved .colour
  else if tooShort n ws then .incomplete
  else .command (.upload pin ((ws.take n).map Word.colour)) (ws.drop n)

/-- The host command decoder, total on every stream of words (R73 to R80). A stream without a first word
holds no command (log 10). -/
def decode : List Word → Verdict
  | [] => .incomplete
  | w :: ws =>
    if w.top = 1 then
      if w.cnt = 0 then .command (.new w.pin) ws else .reserved .count
    else if w.top = 2 then
      if w.cnt = 0 then .command (.init w.pin) ws else .reserved .count
    else if w.top = 3 then decodeUpload w.pin w.cnt ws
    else .reserved .opcode

/-! ### The micro-operation code (R78) -/

/-- The eight micro-operations, as `NEXT` holds them. -/
inductive MicroOp where
  | emit0
  | emit1
  | margin
  | latch
  | resolve
  | dirset
  | drivelow
  | ret
deriving DecidableEq, Repr

/-- The instruction a micro-operation is. -/
def MicroOp.toInstr : MicroOp → Instr
  | .emit0 => .emit0
  | .emit1 => .emit1
  | .margin => .margin
  | .latch => .latch
  | .resolve => .resolve
  | .dirset => .dirset
  | .drivelow => .drivelow
  | .ret => .ret

/-- The micro-operation a 3-bit code names; every code is used, none is reserved (R78). -/
def decodeMicro (c : BitVec 3) : MicroOp :=
  match c.toNat with
  | 0 => .emit0
  | 1 => .emit1
  | 2 => .margin
  | 3 => .latch
  | 4 => .resolve
  | 5 => .dirset
  | 6 => .drivelow
  | _ => .ret

/-! ### The encoder -/

/-- An encoded instruction: host words for a command, a 3-bit code for a micro-operation. -/
inductive Encoding where
  | host (ws : List Word)
  | micro (code : BitVec 3)
deriving DecidableEq, Repr

/-- Format H: operation, pin identifier, count (R73). -/
def encodeCommandWord (opc : Byte) (pin : PinId) (cnt : Nat) : Word :=
  opc ++ pin ++ BitVec.ofNat 16 cnt

/-- Format C: a zero byte, then red, green, blue (R76). -/
def encodeColour (c : Color) : Word := 0#8 ++ c.r ++ c.g ++ c.b

/-- The code of a micro-operation (R78). -/
def MicroOp.code : MicroOp → BitVec 3
  | .emit0 => 0b000
  | .emit1 => 0b001
  | .margin => 0b010
  | .latch => 0b011
  | .resolve => 0b100
  | .dirset => 0b101
  | .drivelow => 0b110
  | .ret => 0b111

/-- The words or the code of an instruction (R73, R74, R76, R78). -/
def encode : Instr → Encoding
  | .new pin => .host [encodeCommandWord 1 pin 0]
  | .init pin => .host [encodeCommandWord 2 pin 0]
  | .upload pin cs => .host (encodeCommandWord 3 pin cs.length :: cs.map encodeColour)
  | .emit0 => .micro MicroOp.emit0.code
  | .emit1 => .micro MicroOp.emit1.code
  | .margin => .micro MicroOp.margin.code
  | .latch => .micro MicroOp.latch.code
  | .resolve => .micro MicroOp.resolve.code
  | .dirset => .micro MicroOp.dirset.code
  | .drivelow => .micro MicroOp.drivelow.code
  | .ret => .micro MicroOp.ret.code

/-- Decoding what the encoder writes, in either format. -/
def decodeEncoding : Encoding → Verdict
  | .host ws => decode ws
  | .micro c => .command (decodeMicro c).toInstr []

/-- The length of an instruction in host words: `1 + CNT` for UPLOAD, 1 for the other commands (R80); a
micro-operation is never sent by the host and has none. -/
def Instr.wordCount : Instr → Nat
  | .new _ => 1
  | .init _ => 1
  | .upload _ cs => 1 + cs.length
  | .emit0 => 0
  | .emit1 => 0
  | .margin => 0
  | .latch => 0
  | .resolve => 0
  | .dirset => 0
  | .drivelow => 0
  | .ret => 0

/-! ### The opcode table's bit numbering -/

/-- The host words of an instruction whose bits are `w`, bit 0 the least significant bit of the first word:
the `nbits` bits the table gives it, then a zero word for each colour its count asks for. -/
def tableWords (nbits w : Nat) : List Word :=
  (List.range ((nbits + 31) / 32)).map (fun k => BitVec.ofNat 32 (w >>> (32 * k)))
    ++ List.replicate (Word.cnt (BitVec.ofNat 32 w)) 0

/-- A table row of at most one byte is a format M code (3 bits, so the byte's other bits are 0), a longer one
is a host command. -/
def decodeTableWord (nbits w : Nat) : Option Instr :=
  if nbits ≤ 8 then
    if w < 8 then some (decodeMicro (BitVec.ofNat 3 w)).toInstr else none
  else
    match decode (tableWords nbits w) with
    | .command i _ => some i
    | .reserved _ => none
    | .incomplete => none

end Sys2Proof
end

