-- ==== Sys2Proof/Machine/State.lean ====
section
/-! DEFINITION. The state of the block (R20), of its launch and of its host interface, as plain data; the reasons a
step can stop; the state after reset (R38, R200). -/
namespace Sys2Proof.Machine

/-- The per-call state machine (R21). -/
inductive Phase where
  | idle
  | resolving
  | failed
  | configuring
  | transmitting
  | latching
deriving DecidableEq, Repr

/-- The command the block carries out, as `CMD` holds it (R20, R24). -/
inductive Command where
  | new
  | init
  | upload
deriving DecidableEq, Repr

/-- Who made a pin write (R27). -/
inductive Agent where
  | block
  | host
deriving DecidableEq, Repr

/-- The two GPIO registers of a port (R28, R29). -/
inductive GpioReg where
  | port
  | dir
deriving DecidableEq, Repr

/-- One timed pin write (R27): at cycle `time` the agent wrote `value` to register `reg` of port `addr`. -/
structure Event where
  time  : Nat
  agent : Agent
  reg   : GpioReg
  addr  : PortAddr
  value : Byte
deriving DecidableEq, Repr

/-- One bank of GPIO registers: the registers that do not read as `0`, by port address in rising order. -/
abbrev Memory := List Host.Cell

/-- The serializer's position: colour index `CI`, wire-byte index `BI`, bit index `KI` (R26). -/
structure Position where
  ci : Nat
  bi : Fin 3
  ki : Fin 8
deriving DecidableEq, Repr

/-- A result word as the host received it, with the cycle of its delivery (R77, R127). -/
structure Delivery where
  time : Nat
  word : Word
deriving DecidableEq, Repr

/-- One item of the host's script: a word of its command stream (R73), time it lets pass, or a GPIO write (R128). -/
inductive HostItem where
  | word (w : Word)
  | wait (cycles : Nat)
  | write (reg : GpioReg) (addr : PortAddr) (value : Byte)
deriving DecidableEq, Repr

/-- What a launch states, fixed for the whole run: the configuration (R8), the premise `NonPreemptive` (R130) and
the free GPIO values (R38). -/
structure Launch where
  cfg           : Config
  nonPreemptive : Bool
  port          : Memory
  dir           : Memory
deriving DecidableEq, Repr

/-- Why the machine stops. -/
inductive Fault where
  /-- Raised by EMIT0, EMIT1, DIRSET and DRIVELOW when `RES = none` (R104, R124, R125, R193). Safe: the source
  calls the behaviour undefined, and no run reaches it. -/
  | invalidResource
  /-- Raised by RESOLVE and MARGIN through `BufRead(i)` with `i >= N` (R52, R193). Safe: no run reaches it. -/
  | bufferIndex
  /-- Raised by `step` in a state whose `phase` and `NEXT` are no row of the table of R21. Safe: no run reaches it
  (log 11). -/
  | illegalPair
deriving DecidableEq, Repr

/-- Why the model gives no step. -/
inductive Refusal where
  /-- Raised by `exec` for an instruction that has no meaning yet; no arm does. Safe. -/
  | notModelled (mnemonic : String)
  /-- Raised by `step` before any step under a configuration that breaks R8 or R30 (R193). Safe. -/
  | badConfig
  /-- Raised by `step` on a reserved host encoding (R79, R193). Safe. -/
  | reserved (kind : ReservedKind)
  /-- Raised by `step` on a command whose words are not all there (R79, R193). Safe. -/
  | incomplete
  /-- Raised by NEW, INIT and UPLOAD in a run without the premise `NonPreemptive` (R126, R130, R193). Safe. -/
  | preemption
  /-- Raised by NEW, INIT and UPLOAD when the block is busy: the host then has no step (R126). Safe: `step` never
  asks for it (log 13). -/
  | hostBlocked
deriving DecidableEq, Repr

/-- The state of the machine. The block's registers carry the spec's names in lower case (R20); `launch` is fixed;
`input`, `results` and `draws` are the model's own (logs 6, 7, 8). -/
structure State where
  phase   : Phase
  next    : Option MicroOp
  t       : Nat
  result  : Bool
  cmd     : Command
  id      : PinId
  buf     : List Color
  res     : Option PinRes
  pos     : Position
  port    : Memory
  dir     : Memory
  trace   : List Event
  launch  : Launch
  input   : List HostItem
  results : List Delivery
  draws   : Nat
deriving DecidableEq, Repr

/-- The state after reset for a launch (R38, R200). DESIGN CHOICE (log 5): the components that hold no value
(`RESULT`, `CMD`, `ID`, `BUF`, `CI`, `BI`, `KI`) start at the first value of their type. -/
def State.ofLaunch (l : Launch) : State where
  phase   := .idle
  next    := none
  t       := 0
  result  := false
  cmd     := .new
  id      := 0
  buf     := []
  res     := none
  pos     := ⟨0, 0, 0⟩
  port    := l.port
  dir     := l.dir
  trace   := []
  launch  := l
  input   := []
  results := []
  draws   := 0

/-- The example configuration EX of decision D29, its port `PA` at address 0 (DESIGN CHOICE, log 1). -/
def exampleConfig : Config where
  pins        := [(2, ⟨0, 0x04⟩), (3, ⟨0, 0x08⟩)]
  fCpuHz      := 16000000
  t0hCyc      := 6
  t1hCyc      := 13
  bitCyc      := 20
  ovhMin      := 4
  ovhMax      := 4
  delayOvhMax := 0

/-- The launch of `State.reset`: EX, the premise held, every GPIO register 0 (DESIGN CHOICE, logs 1, 4, 9). -/
def exampleLaunch : Launch where
  cfg           := exampleConfig
  nonPreemptive := true
  port          := []
  dir           := []

/-- The machine right after reset. -/
def State.reset : State := State.ofLaunch exampleLaunch

end Sys2Proof.Machine
end

