-- ==== Sys2Proof/Machine/Flags.lean ====
section
/-! DEFINITION. The block's one flag, `RESULT`, and the result words the host receives (R23, R77). -/
namespace Sys2Proof.Machine

/-- `zext_32(RESULT)`: the result word of INIT and UPLOAD (R77). -/
def resultWord (success : Bool) : Word := (BitVec.ofBool success).setWidth 32

/-- `zext_32(PIN)`: the result word of NEW, the handle (R77, R120). -/
def handleWord (pin : PinId) : Word := pin.setWidth 32

/-- `RESULT <- b`, written by RESOLVE alone (R23). -/
def State.setResult (s : State) (b : Bool) : State := { s with result := b }

end Sys2Proof.Machine
end

