-- ==== Sys2Proof/Machine/Parameters.lean ====
section
/-! DEFINITION. What is computed from the configuration: pin resolution, the check of R8, the conversion of
microseconds to cycles, and a draw brought inside its bounds. -/
namespace Sys2Proof

/-- Pin resolution, a fixed total function of the identifier; `none` where it names no pin (R8, R60, D11). -/
def Config.resolve (c : Config) (id : PinId) : Option PinRes := c.pins.lookup id

/-- The number of bits set in a mask. -/
def popcount (m : Byte) : Nat := ((List.range 8).filter fun k => m.getLsbD k).length

/-- The constraints of R8 and R30; a configuration that breaks one is refused. -/
def Config.ok (c : Config) : Bool :=
  0 < c.fCpuHz && 0 < c.t0hCyc && c.t0hCyc < c.t1hCyc && c.t1hCyc < c.bitCyc && c.ovhMin ≤ c.ovhMax &&
    50 ≤ c.latchUs && c.pins.all fun p => popcount p.2.mask == 1

/-- `ceil(n / d)`. -/
def ceilDiv (n d : Nat) : Nat := n / d + if n % d = 0 then 0 else 1

/-- Microseconds to CPU cycles, rounded up: `ceil(us * F_CPU_HZ / 1_000_000)` (R9). -/
def Config.usToCyc (c : Config) (us : Nat) : Nat := ceilDiv (us * c.fCpuHz) 1000000

/-- The free number `raw` brought into `[lo, hi]`: every number of the interval is the image of some `raw`, and
an interval of one number gives that number (R11, R12). -/
def Config.drawWithin (lo hi raw : Nat) : Nat := if hi ≤ lo then lo else lo + raw % (hi - lo + 1)

/-- `draw_ovh()`, the `k`-th draw of the run: a free number of `[OVH_MIN, OVH_MAX]` (R11, D5). -/
def Config.ovhDraw (c : Config) (k : Nat) : Nat := Config.drawWithin c.ovhMin c.ovhMax (Config.freeDraw k)

/-- `draw_delay(us)`, the `k`-th draw of the run: a free number of
`[us_to_cyc(us), us_to_cyc(us) + DELAY_OVH_MAX]` (R11, R188, D6). -/
def Config.delayDraw (c : Config) (us k : Nat) : Nat :=
  Config.drawWithin (c.usToCyc us) (c.usToCyc us + c.delayOvhMax) (Config.freeDraw k)

end Sys2Proof
end

