-- ==== Sys2Proof/Machine/Operands.lean ====
section
/-! DEFINITION. The operand forms of the serializer: buffer reads, wire order, the bit a position names, the advance
of the position and the schedule (R52, R150, R151, R152, R155). -/
namespace Sys2Proof.Machine

/-- `BufRead(i)`: the i-th colour of the snapshot; `none` outside `0 <= i < N` (R52). -/
def bufRead (buf : List Color) (i : Nat) : Option Color := buf[i]?

/-- The wire bytes of a colour: green, red, blue (R56, R150). -/
def toWire (c : Color) : List Byte := [c.g, c.r, c.b]

/-- `to_wire(c)[j]`. -/
def wireByte (c : Color) (j : Fin 3) : Byte := (toWire c).getD j 0

/-- `wire_bit(c, j, k) = (to_wire(c)[j] >> k) & 1`, as a truth value (R151). -/
def wireBit (c : Color) (j : Fin 3) (k : Fin 8) : Bool := (wireByte c j >>> (k : Nat)) &&& 1 == 1

/-- The bits of a byte's walk, most significant first (R56, R71). -/
def bitOrder : List (Fin 8) := [7, 6, 5, 4, 3, 2, 1, 0]

/-- The 24 bits of one colour in wire order (R71, R151). -/
def colourBits (c : Color) : List Bool := [0, 1, 2].flatMap fun j => bitOrder.map fun k => wireBit c j k

/-- The bits of a frame in wire order (R72, R151). -/
def wireBits : List Color → List Bool
  | [] => []
  | c :: cs => colourBits c ++ wireBits cs

/-- The micro-operation that sends a bit: its code is `{00, b}` (R151, R152). -/
def emitOf (b : Bool) : MicroOp := if b then .emit1 else .emit0

/-- `sched()`: the latch when every colour is sent, else the pulse of the bit at the position; `none` where the
position lies outside the buffer, which is the fault `BufferIndex` (R52, R152). -/
def sched (buf : List Color) (p : Position) : Option (Phase × MicroOp) :=
  if p.ci = buf.length then some (.latching, .latch)
  else
    match bufRead buf p.ci with
    | none => none
    | some c => some (.transmitting, emitOf (wireBit c p.bi p.ki))

/-- `adv`: the next bit of the same byte, or the first bit of the next wire byte, or the first bit of the next
colour (R155). -/
def adv (p : Position) : Position :=
  if 0 < p.ki then ⟨p.ci, p.bi, p.ki - 1⟩
  else if p.bi < 2 then ⟨p.ci, p.bi + 1, 7⟩
  else ⟨p.ci + 1, 0, 7⟩

/-- The position of the first bit of a frame (R121). -/
def Position.start : Position := ⟨0, 0, 7⟩

/-- The pulses still to send from a position of an `n`-colour frame: `24·(N - CI) - 8·BI - (7 - KI)` (R157). -/
def Position.pulsesLeft (n : Nat) (p : Position) : Nat := 24 * (n - p.ci) - 8 * p.bi - (7 - p.ki)

end Sys2Proof.Machine
end

