-- ==== Sys2Proof/Machine/Ops.lean ====
section
/-! DEFINITION. The named operations over GPIO registers, time, the trace and the sequencer that every meaning is
built from; raising the one error, and the return that ends a command. -/
namespace Sys2Proof.Machine

/-! ### GPIO register banks -/

/-- The register at address `a`; an unlisted one reads as 0. -/
def Memory.read : Memory → Nat → Byte
  | [], _ => 0
  | (k, v) :: m, a => if k = a then v else Memory.read m a

/-- Write `v` at `a`, keeping the addresses rising and no entry equal to 0. -/
def Memory.write : Memory → Nat → Byte → Memory
  | [], a, v => if v = 0 then [] else [(a, v)]
  | (k, x) :: m, a, v =>
    if a < k then (if v = 0 then (k, x) :: m else (a, v) :: (k, x) :: m)
    else if a = k then (if v = 0 then m else (a, v) :: m)
    else (k, x) :: Memory.write m a v

/-- The canonical form: addresses strictly rising, and no entry equal to what an unlisted address reads as. -/
abbrev Memory.wf (m : Memory) : Prop := m.Pairwise (fun c d => c.1 < d.1) ∧ ∀ c ∈ m, c.2 ≠ 0

/-! ### Field updates -/

/-- `t <- n`. -/
def State.setTime (s : State) (n : Nat) : State := { s with t := n }

/-- `t <- t + n` (R11). -/
def State.tick (s : State) (n : Nat) : State := s.setTime (s.t + n)

/-- `PORT a <- v` by an agent, recorded at the current cycle (R27, R53, R128). -/
def State.writePort (s : State) (g : Agent) (a : PortAddr) (v : Byte) : State :=
  { s with port := Memory.write s.port a v, trace := s.trace ++ [⟨s.t, g, .port, a, v⟩] }

/-- `DIR a <- v` by an agent, recorded at the current cycle (R27, R53, R128). -/
def State.writeDir (s : State) (g : Agent) (a : PortAddr) (v : Byte) : State :=
  { s with dir := Memory.write s.dir a v, trace := s.trace ++ [⟨s.t, g, .dir, a, v⟩] }

/-- `phase <- p; NEXT <- n`. -/
def State.goTo (s : State) (p : Phase) (n : Option MicroOp) : State := { s with phase := p, next := n }

/-- `NEXT <- op`, the phase kept. -/
def State.goNext (s : State) (op : MicroOp) : State := { s with next := some op }

/-- `RES <- r` (R25). -/
def State.setRes (s : State) (r : Option PinRes) : State := { s with res := r }

/-- `(CI, BI, KI) <- p` (R26). -/
def State.setPos (s : State) (p : Position) : State := { s with pos := p }

/-- Latch a command's operands: `CMD`, `ID`, `BUF` (R24, R126). -/
def State.latchCommand (s : State) (c : Command) (id : PinId) (cs : List Color) : State :=
  { s with cmd := c, id := id, buf := cs }

/-- Hand a result word to the host at the current cycle (R77). -/
def State.deliver (s : State) (w : Word) : State := { s with results := s.results ++ [⟨s.t, w⟩] }

/-- The host's script from here on. -/
def State.setInput (s : State) (l : List HostItem) : State := { s with input := l }

/-! ### The GPIO primitives (R53) -/

/-- `PortSet(a, m)`: set the masked bits of `PORT a`. -/
def State.portSet (s : State) (a : PortAddr) (m : Byte) : State :=
  s.writePort .block a (Memory.read s.port a ||| m)

/-- `PortClr(a, m)`: clear the masked bits of `PORT a`. -/
def State.portClr (s : State) (a : PortAddr) (m : Byte) : State :=
  s.writePort .block a (Memory.read s.port a &&& ~~~m)

/-- `DirSet(a, m)`: set the masked bits of `DIR a`. -/
def State.dirSet (s : State) (a : PortAddr) (m : Byte) : State :=
  s.writeDir .block a (Memory.read s.dir a ||| m)

/-! ### Draws (R11) -/

/-- One draw of the run is used up. -/
def State.useDraw (s : State) : State := { s with draws := s.draws + 1 }

/-- `t <- t + draw_ovh()`. -/
def State.takeOvh (s : State) : State := (s.tick (s.launch.cfg.ovhDraw s.draws)).useDraw

/-- `t <- t + draw_delay(us)`. -/
def State.takeDelay (s : State) (us : Nat) : State := (s.tick (s.launch.cfg.delayDraw us s.draws)).useDraw

/-! ### Shared steps of the meanings -/

/-- Run `f` on the resolved resource; without one the behaviour is undefined, a fault (R104). -/
def State.withRes (s : State) (f : PinRes → State) : Host.Outcome State Fault Refusal :=
  match s.res with
  | none => .fault .invalidResource
  | some r => .next (f r)

/-- A pulse of high time `high`: high write at the start, low write `high` cycles later, `BIT_CYC` cycles in all,
then MARGIN (R100 to R103). The pulse takes no draw. -/
def State.pulse (s : State) (high : Nat) (r : PinRes) : State :=
  ((((s.portSet r.port r.mask).setTime (s.t + high)).portClr r.port r.mask).setTime
    (s.t + s.launch.cfg.bitCyc)).goNext .margin

/-- `(phase, NEXT) <- sched()`; a position outside the buffer is the fault `BufferIndex` (R52, R152). -/
def State.schedule (s : State) : Host.Outcome State Fault Refusal :=
  match sched s.buf s.pos with
  | none => .fault .bufferIndex
  | some (p, op) => .next (s.goTo p (some op))

/-- Raise InvalidDeviceIdentifier: `RESULT <- 0` and RETURN is scheduled; nothing is saved, no mode or vector
exists (R180, R184). -/
def State.raiseInvalidDeviceIdentifier (s : State) : State := (s.setResult false).goTo .failed (some .ret)

/-- The end of INIT and UPLOAD, successful or failed: deliver `RESULT`, drop the resource, go Idle (R127, R184).
DESIGN CHOICE (log 21): `CI`, `BI`, `KI`, which hold no value outside an UPLOAD (R26), and `CMD`, `ID`, `BUF` keep
their last values. -/
def State.finish (s : State) : State := ((s.deliver (resultWord s.result)).setRes none).goTo .idle none

/-- Command issue (R126): the host has a step only while the block is Idle, and only under the premise
`NonPreemptive` (R130). -/
def State.issue (s : State) (f : State → State) : Host.Outcome State Fault Refusal :=
  if s.phase = .idle then
    if s.launch.nonPreemptive then .next (f s) else .refused .preemption
  else .refused .hostBlocked

/-- Latch a command and start it: `phase <- Resolving; NEXT <- RESOLVE` (R126). -/
def State.start (s : State) (c : Command) (id : PinId) (cs : List Color) : State :=
  (s.latchCommand c id cs).goTo .resolving (some .resolve)

/-- A GPIO write by the host, while the block is Idle (R128). -/
def State.hostWrite (s : State) (r : GpioReg) (a : PortAddr) (v : Byte) : State :=
  match r with
  | .port => s.writePort .host a v
  | .dir => s.writeDir .host a v

/-- The legal pairs of `phase` and `NEXT`, exactly the table of R21. -/
def legalPair : Phase → Option MicroOp → Bool
  | .idle, none => true
  | .resolving, some .resolve => true
  | .failed, some .ret => true
  | .configuring, some .dirset => true
  | .configuring, some .drivelow => true
  | .configuring, some .ret => true
  | .transmitting, some .emit0 => true
  | .transmitting, some .emit1 => true
  | .transmitting, some .margin => true
  | .latching, some .latch => true
  | .latching, some .ret => true
  | _, _ => false

end Sys2Proof.Machine
end

