-- ==== Sys2Proof/Machine/Commands.lean ====
section
/-! DEFINITION. The meanings of the host commands: NEW, INIT, UPLOAD (R120, R122, R123, R126). -/
namespace Sys2Proof.Machine

/-- NEW: deliver the handle; nothing else changes, no cycle passes, `resolve` is not consulted (R120, D35). -/
def execNew (pin : PinId) (s : State) : Host.Outcome State Fault Refusal :=
  s.issue fun s => s.deliver (handleWord pin)

/-- INIT, issue: latch the command with an empty buffer and schedule RESOLVE (R122, R126). -/
def execInit (pin : PinId) (s : State) : Host.Outcome State Fault Refusal :=
  s.issue fun s => s.start .init pin []

/-- UPLOAD, issue: latch the command with a copy of the colours and schedule RESOLVE (R24, R123, R126). -/
def execUpload (pin : PinId) (colours : List Color) (s : State) : Host.Outcome State Fault Refusal :=
  s.issue fun s => s.start .upload pin colours

end Sys2Proof.Machine
end

