-- ==== Sys2Proof/Machine/Control.lean ====
section
/-! DEFINITION. The meanings of the control micro-operations: RESOLVE, DIRSET, DRIVELOW, RETURN (R121, R124, R125,
R127). -/
namespace Sys2Proof.Machine

/-- What RESOLVE schedules once the identifier has resolved (R121). `CMD = NEW` cannot stand here; the rule then
writes neither `phase` nor `NEXT` (DEDUCED, log 12). For INIT the position, which then holds no value (R26), is left as it
was (DESIGN CHOICE, log 21). -/
def State.resolved (s : State) : Host.Outcome State Fault Refusal :=
  match s.cmd with
  | .new => .next s
  | .init => .next (s.goTo .configuring (some .dirset))
  | .upload => (s.setPos Position.start).schedule

/-- RESOLVE: resolve `ID`; an identifier without a pin raises InvalidDeviceIdentifier (R121, R180). -/
def execResolve (s : State) : Host.Outcome State Fault Refusal :=
  match s.launch.cfg.resolve s.id with
  | none => .next (s.takeOvh.setRes none).raiseInvalidDeviceIdentifier
  | some r => ((s.takeOvh.setRes (some r)).setResult true).resolved

/-- DIRSET: overhead, then the pin becomes an output (R124). -/
def execDirset (s : State) : Host.Outcome State Fault Refusal :=
  s.withRes fun r => (s.takeOvh.dirSet r.port r.mask).goNext .drivelow

/-- DRIVELOW: overhead, then the pin is driven low (R125). -/
def execDrivelow (s : State) : Host.Outcome State Fault Refusal :=
  s.withRes fun r => (s.takeOvh.portClr r.port r.mask).goNext .ret

/-- RETURN: overhead, then the command ends and its result word is delivered (R127). -/
def execRet (s : State) : Host.Outcome State Fault Refusal := .next s.takeOvh.finish

end Sys2Proof.Machine
end

