-- ==== Sys2Proof/Machine/Pulse.lean ====
section
/-! DEFINITION. The meanings of the pulse primitives: EMIT0, EMIT1 (R100 to R105). -/
namespace Sys2Proof.Machine

/-- EMIT0, the logical-0 pulse: high for `T0H_CYC` cycles of the bit period (R101). -/
def execEmit0 (s : State) : Host.Outcome State Fault Refusal := s.withRes (s.pulse s.launch.cfg.t0hCyc)

/-- EMIT1, the logical-1 pulse: high for `T1H_CYC` cycles of the bit period (R102). -/
def execEmit1 (s : State) : Host.Outcome State Fault Refusal := s.withRes (s.pulse s.launch.cfg.t1hCyc)

end Sys2Proof.Machine
end

