-- ==== Sys2Proof/Machine/Serializer.lean ====
section
/-! DEFINITION. The meanings of the serializer's micro-operations: MARGIN, LATCH (R153, R154). -/
namespace Sys2Proof.Machine

/-- MARGIN: overhead and the margin delay, then the next bit is scheduled (R153). -/
def execMargin (s : State) : Host.Outcome State Fault Refusal :=
  ((s.takeOvh.takeDelay s.launch.cfg.marginUs).setPos (adv s.pos)).schedule

/-- LATCH: overhead and the latch delay, no GPIO write, then RETURN (R154). -/
def execLatch (s : State) : Host.Outcome State Fault Refusal :=
  .next ((s.takeOvh.takeDelay s.launch.cfg.latchUs).goNext .ret)

end Sys2Proof.Machine
end

