-- ==== Sys2Proof/Machine/Dispatch.lean ====
section
/-! DEFINITION. One arm per instruction, each one call of its meaning. -/
namespace Sys2Proof.Machine

def exec (i : Instr) (s : State) : Host.Outcome State Fault Refusal :=
  match i with
  -- host commands
  | .new pin => Sys2Proof.Machine.execNew pin s
  | .init pin => Sys2Proof.Machine.execInit pin s
  | .upload pin colours => Sys2Proof.Machine.execUpload pin colours s
  -- pulse primitives
  | .emit0 => Sys2Proof.Machine.execEmit0 s
  | .emit1 => Sys2Proof.Machine.execEmit1 s
  -- serializer
  | .margin => Sys2Proof.Machine.execMargin s
  | .latch => Sys2Proof.Machine.execLatch s
  -- control
  | .resolve => Sys2Proof.Machine.execResolve s
  | .dirset => Sys2Proof.Machine.execDirset s
  | .drivelow => Sys2Proof.Machine.execDrivelow s
  | .ret => Sys2Proof.Machine.execRet s

end Sys2Proof.Machine
end

