-- ==== Sys2Proof/Machine/Fetch.lean ====
section
/-! DEFINITION. Where the next instruction comes from: the host's script while the block is Idle (R126, R128), `NEXT`
while it is busy (R35); and how an instruction is placed there. -/
namespace Sys2Proof.Machine

/-- The words at the head of the host's script, up to its next wait or GPIO write: the command stream the decoder
reads (R58, R73). -/
def leadingWords : List HostItem → List Word
  | .word w :: l => w :: leadingWords l
  | .wait _ :: _ => []
  | .write _ _ _ :: _ => []
  | [] => []

/-- A step of the host, the block being Idle (R126, R128). With nothing left in the script the host takes no step
and the block waits, all state kept (R192, R201; log 7). -/
def hostStep (s : State) : Host.Outcome State Fault Refusal :=
  match s.input with
  | [] => .next s
  | .wait d :: l => .next ((s.setInput l).tick d)
  | .write r a v :: l => .next ((s.setInput l).hostWrite r a v)
  | .word w :: l =>
    match decode (w :: leadingWords l) with
    | .command i _ => exec i (s.setInput (s.input.drop i.wordCount))
    | .reserved k => .refused (.reserved k)
    | .incomplete => .refused .incomplete

/-- A step of the machine: refused under a bad configuration, a fault outside the table of R21, else the scheduled
micro-operation, or the host when none is scheduled (R8, R21, R35, R193). -/
def machineStep (s : State) : Host.Outcome State Fault Refusal :=
  if s.launch.cfg.ok then
    if legalPair s.phase s.next then
      match s.next with
      | none => hostStep s
      | some op => exec op.toInstr s
    else .fault .illegalPair
  else .refused .badConfig

/-- A phase in which R21 allows the micro-operation to be scheduled. -/
def phaseOf : MicroOp → Phase
  | .emit0 => .transmitting
  | .emit1 => .transmitting
  | .margin => .transmitting
  | .latch => .latching
  | .resolve => .resolving
  | .dirset => .configuring
  | .drivelow => .configuring
  | .ret => .failed

/-- The resource a micro-operation finds when the sequencer schedules it: RESOLVE has set `RES` before EMIT0, EMIT1,
DIRSET and DRIVELOW; a state without one is given the configuration's first (log 14). -/
def resourceFor (op : MicroOp) (s : State) : Option PinRes :=
  match op with
  | .emit0 => s.res.or (s.launch.cfg.pins.head?.map (·.2))
  | .emit1 => s.res.or (s.launch.cfg.pins.head?.map (·.2))
  | .dirset => s.res.or (s.launch.cfg.pins.head?.map (·.2))
  | .drivelow => s.res.or (s.launch.cfg.pins.head?.map (·.2))
  | .margin => s.res
  | .latch => s.res
  | .resolve => s.res
  | .ret => s.res

/-- Schedule a micro-operation: `NEXT`, and the phase and resource it is scheduled with. -/
def placeMicro (s : State) (op : MicroOp) : State :=
  (s.setRes (resourceFor op s)).goTo (phaseOf op) (some op)

/-- Put host words at the head of the script of an Idle block. -/
def placeWords (s : State) (ws : List Word) : State :=
  (s.setInput (ws.map HostItem.word ++ s.input)).goTo .idle none

/-- Place the instruction the opcode table numbers `w` where the next step fetches (log 14). -/
def placeTableWord (s : State) (nbits w : Nat) : State :=
  if nbits ≤ 8 then placeMicro s (decodeMicro (BitVec.ofNat 3 w)) else placeWords s (tableWords nbits w)

end Sys2Proof.Machine
end

