-- ==== Sys2Proof/Machine/Step.lean ====
section
/-! DEFINITION. One step of the machine, and the placing of an instruction where it fetches. -/
namespace Sys2Proof.Machine

/-- One step: of the block while it is busy, of the host while it is Idle. -/
def step (s : State) : Host.Outcome State Fault Refusal := machineStep s

/-- The state whose next step runs exactly the instruction with the opcode table's bits `w` (log 14). -/
def State.withFetchWord (s : State) (nbits w : Nat) : State := placeTableWord s nbits w

end Sys2Proof.Machine
end

