-- ==== Sys2Proof/Machine/Assembler.lean ====
section
/-! DEFINITION. The textual form of a command stream and its assembler (R81). There are no pseudo-instructions (R82). -/
namespace Sys2Proof.Machine

/-- One line of a command stream, its numbers as written. -/
inductive AsmItem where
  | new (pin : Nat)
  | init (pin : Nat)
  | upload (pin n : Nat)
  | color (r g b : Nat)
deriving DecidableEq, Repr

/-- The word of one line; `none` where a number does not fit its field. -/
def AsmItem.word : AsmItem → Option Word
  | .new pin => if pin < 256 then some (encodeCommandWord 1 (BitVec.ofNat 8 pin) 0) else none
  | .init pin => if pin < 256 then some (encodeCommandWord 2 (BitVec.ofNat 8 pin) 0) else none
  | .upload pin n =>
    if pin < 256 ∧ n < 65536 then some (encodeCommandWord 3 (BitVec.ofNat 8 pin) n) else none
  | .color r g b =>
    if r < 256 ∧ g < 256 ∧ b < 256 then
      some (encodeColour ⟨BitVec.ofNat 8 r, BitVec.ofNat 8 g, BitVec.ofNat 8 b⟩)
    else none

/-- The number of `.color` lines that must follow a line when `due` were still due before it; `none` where the line
may not stand there: exactly `n` follow each `upload`, and no other `.color` line is allowed. -/
def AsmItem.coloursDue : AsmItem → Nat → Option Nat
  | .color _ _ _, due + 1 => some due
  | .color _ _ _, 0 => none
  | .new _, 0 => some 0
  | .init _, 0 => some 0
  | .upload _ n, 0 => some n
  | .new _, _ + 1 => none
  | .init _, _ + 1 => none
  | .upload _ _, _ + 1 => none

/-- The words of the lines that are left, `due` `.color` lines being due first. -/
def assembleFrom : Nat → List AsmItem → Option (List Word)
  | 0, [] => some []
  | _ + 1, [] => none
  | due, i :: is =>
    match i.word, i.coloursDue due with
    | some w, some due' => (assembleFrom due' is).map (w :: ·)
    | _, _ => none

/-- The assembler: the words of a command stream, or a refusal. -/
def assemble (is : List AsmItem) : Option (List Word) := assembleFrom 0 is

/-! ### Text (log 18) -/

/-- A blank inside a line. -/
def isBlank (c : Char) : Bool := c == ' ' || c == '\t' || c == '\r'

/-- The lines of a text. -/
def linesOf : List Char → List (List Char)
  | [] => [[]]
  | c :: cs =>
    if c == '\n' then [] :: linesOf cs
    else
      match linesOf cs with
      | [] => [[c]]
      | l :: ls => (c :: l) :: ls

/-- Drop a comment: `;` to the end of the line. -/
def stripComment (l : List Char) : List Char := l.takeWhile (· != ';')

/-- The tokens of a line: a comma is one of its own, blanks separate the others; `cur` is the token in progress. -/
def tokens : List Char → List Char → List (List Char)
  | cur, [] => if cur.isEmpty then [] else [cur]
  | cur, c :: cs =>
    if isBlank c then (if cur.isEmpty then tokens [] cs else cur :: tokens [] cs)
    else if c == ',' then (if cur.isEmpty then [','] :: tokens [] cs else cur :: [','] :: tokens [] cs)
    else tokens (cur ++ [c]) cs

/-- The value of one digit. -/
def digitValue (c : Char) : Option Nat :=
  if '0' ≤ c ∧ c ≤ '9' then some (c.toNat - 48)
  else if 'a' ≤ c ∧ c ≤ 'f' then some (c.toNat - 87)
  else if 'A' ≤ c ∧ c ≤ 'F' then some (c.toNat - 55)
  else none

/-- The value of a digit string in a base, `acc` standing for the digits before it. -/
def digitsValue (base : Nat) : Nat → List Char → Option Nat
  | acc, [] => some acc
  | acc, c :: cs =>
    match digitValue c with
    | none => none
    | some d => if d < base then digitsValue base (acc * base + d) cs else none

/-- A number, decimal or `0x` hexadecimal. -/
def numberValue : List Char → Option Nat
  | [] => none
  | ['0', 'x'] => none
  | '0' :: 'x' :: ds => digitsValue 16 0 ds
  | ds => digitsValue 10 0 ds

/-- One line's tokens as an item. -/
def parseLine : List (List Char) → Option AsmItem
  | [op, p] =>
    if op = ['n', 'e', 'w'] then (numberValue p).map .new
    else if op = ['i', 'n', 'i', 't'] then (numberValue p).map .init
    else none
  | [op, p, [','], n] =>
    if op = ['u', 'p', 'l', 'o', 'a', 'd'] then
      (numberValue p).bind fun p => (numberValue n).map (.upload p)
    else none
  | [op, r, [','], g, [','], b] =>
    if op = ['.', 'c', 'o', 'l', 'o', 'r'] then
      (numberValue r).bind fun r => (numberValue g).bind fun g => (numberValue b).map (.color r g)
    else none
  | _ => none

/-- The items of a list of lines; a line without tokens holds none, a line that is no item is refused. -/
def parseLines : List (List Char) → Option (List AsmItem)
  | [] => some []
  | l :: ls =>
    match tokens [] (stripComment l) with
    | [] => parseLines ls
    | ts => (parseLine ts).bind fun i => (parseLines ls).map (i :: ·)

/-- Text to host words, or a refusal. -/
def assembleText (text : List Char) : Option (List Word) := (parseLines (linesOf text)).bind assemble

/-- The name of a micro-operation in listings and traces; it is no part of the host syntax. -/
def microMnemonic : MicroOp → String
  | .emit0 => "emit0"
  | .emit1 => "emit1"
  | .margin => "margin"
  | .latch => "latch"
  | .resolve => "resolve"
  | .dirset => "dirset"
  | .drivelow => "drivelow"
  | .ret => "return"

end Sys2Proof.Machine
end

