-- ==== Sys2Proof/Machine/Line.lean ====
section
/-! DEFINITION. What an observer sees: the level of a data line as a function of the launch and the trace (R37), the
pulses on it and their classification (R161). No step of the block uses this file. -/
namespace Sys2Proof.Machine

/-- The value of register `r` of port `a` after the events of the trace that have happened by cycle `x`; the last
event of the list wins, and `v` is the launch value (R37). -/
def regAt (r : GpioReg) (a : PortAddr) (x : Nat) : Byte → List Event → Byte
  | v, [] => v
  | v, e :: l => regAt r a x (if e.reg = r ∧ e.addr = a ∧ e.time ≤ x then e.value else v) l

/-- A data line's level (R37). `undriven`: the block does not define the level, any level may be seen (D13). -/
inductive Level where
  | high
  | low
  | undriven
deriving DecidableEq, Repr

/-- `line(a, m, x)`: the level of the line of resource `(a, m)` at cycle `x` (R37). -/
def State.line (s : State) (a : PortAddr) (m : Byte) (x : Nat) : Level :=
  if regAt .dir a x (Memory.read s.launch.dir a) s.trace &&& m = 0 then .undriven
  else if regAt .port a x (Memory.read s.launch.port a) s.trace &&& m = 0 then .low
  else .high

/-- The lengths of the maximal runs of `true`, in order; `n` is the length of the run in progress. -/
def trueRuns : Nat → List Bool → List Nat
  | 0, [] => []
  | n + 1, [] => [n + 1]
  | n, true :: l => trueRuns (n + 1) l
  | 0, false :: l => trueRuns 0 l
  | n + 1, false :: l => (n + 1) :: trueRuns 0 l

/-- `pulses(a, m)` over the cycles `x0 <= x < x0 + n`: the lengths of the maximal High intervals in time order (R161;
DEDUCED, log 19). -/
def State.pulses (s : State) (a : PortAddr) (m : Byte) (x0 n : Nat) : List Nat :=
  trueRuns 0 ((List.range' x0 n).map fun x => s.line a m x == .high)

/-- `|h - k| <= tol` on naturals. -/
def within (tol h k : Nat) : Bool := h ≤ k + tol && k ≤ h + tol

/-- `classify(h)`: the bit a high time stands for, `none` for `Invalid` (R161). `tol` is a parameter of the claim. -/
def classify (c : Config) (tol h : Nat) : Option Bool :=
  if within tol h c.t0hCyc then some false
  else if within tol h c.t1hCyc then some true
  else none

end Sys2Proof.Machine
end

