-- ==== Sys2Proof/Safety.lean ====
section
/-! DEFINITION. What the claims take as a safe state: the invariant of every run, in the terms of the rules it comes
from. -/
namespace Sys2Proof.Machine

/-- A register bank after the events of a trace, in list order, from its launch value (R27, R37). -/
def replay (r : GpioReg) : Memory → List Event → Memory
  | m, [] => m
  | m, e :: l => replay r (if e.reg = r then Memory.write m e.addr e.value else m) l

/-- The current command's resource is the one its identifier resolves to (R25, R121). -/
abbrev State.Resolved (s : State) : Prop := s.res.isSome ∧ s.res = s.launch.cfg.resolve s.id

/-- The port bit of the current resource is 0 (R158). -/
abbrev State.PinLow (s : State) : Prop := ∀ r ∈ s.res, Memory.read s.port r.port &&& r.mask = 0

/-- The direction bit of the current resource is 1 (R131). -/
abbrev State.PinOutput (s : State) : Prop := ∀ r ∈ s.res, Memory.read s.dir r.port &&& r.mask = r.mask

/-- What holds while INIT configures its pin: the direction before DRIVELOW, direction and level before RETURN
(R122, R131). -/
abbrev State.ConfiguringOk (s : State) : Prop :=
  (s.next = some .dirset) ∨ (s.next = some .drivelow ∧ s.PinOutput) ∨
    (s.next = some .ret ∧ s.PinOutput ∧ s.PinLow)

/-- What holds while UPLOAD sends: the scheduled pulse is the one of the current bit, and the pin is low between
pulses (R152, R157, R158). -/
abbrev State.TransmittingOk (s : State) : Prop :=
  s.pos.ci < s.buf.length ∧
    ((s.next = some .margin ∧ s.PinLow) ∨
      ((sched s.buf s.pos).map (·.2) = s.next ∧ (s.pos ≠ Position.start → s.PinLow)))

/-- What holds of the current command in each phase (R21, R23 to R26, R121, R126, R127, R158). -/
def State.CommandOk (s : State) : Prop :=
  match s.phase with
  | .idle => s.res = none
  | .resolving => s.res = none ∧ s.cmd ≠ .new ∧ (s.cmd = .init → s.buf = [])
  | .failed => s.res = none ∧ s.cmd ≠ .new ∧ s.result = false ∧ s.launch.cfg.resolve s.id = none
  | .configuring => s.cmd = .init ∧ s.result = true ∧ s.Resolved ∧ s.ConfiguringOk
  | .transmitting => s.cmd = .upload ∧ s.result = true ∧ s.Resolved ∧ s.TransmittingOk
  | .latching =>
    s.cmd = .upload ∧ s.result = true ∧ s.Resolved ∧ s.pos = ⟨s.buf.length, 0, 7⟩ ∧ (s.buf ≠ [] → s.PinLow)

/-- The invariant of every run. -/
structure State.Inv (s : State) : Prop where
  /-- the configuration meets R8 and R30 -/
  cfgOk : s.launch.cfg.ok = true
  /-- phase and `NEXT` are a row of R21 -/
  pair : legalPair s.phase s.next = true
  /-- the register banks are in canonical form -/
  portWf : Memory.wf s.port
  dirWf : Memory.wf s.dir
  launchPortWf : Memory.wf s.launch.port
  launchDirWf : Memory.wf s.launch.dir
  /-- the trace accounts for every GPIO register (R27, R37) -/
  portTraced : s.port = replay .port s.launch.port s.trace
  dirTraced : s.dir = replay .dir s.launch.dir s.trace
  /-- the trace's times never decrease and none lies in the future (R27) -/
  traceOrdered : s.trace.Pairwise fun e f => e.time ≤ f.time
  tracePast : ∀ e ∈ s.trace, e.time ≤ s.t
  /-- a busy block runs under the premise (R126, R130) -/
  premise : s.phase ≠ .idle → s.launch.nonPreemptive = true
  /-- the current command -/
  command : s.CommandOk

/-- A launch a run may start from: a configuration R8 allows, register banks in canonical form. -/
structure Launch.Ok (l : Launch) : Prop where
  cfgOk : l.cfg.ok = true
  portWf : Memory.wf l.port
  dirWf : Memory.wf l.dir

/-- No step from this state faults. -/
def State.StepsWithoutFault (s : State) : Prop := ∀ f, step s ≠ .fault f

/-- `k` steps of the machine, stopping at the first fault or refusal: `Host.Core.run` on the machine's own types. -/
def run : Nat → State → Host.Outcome State Fault Refusal
  | 0, s => .next s
  | k + 1, s =>
    match step s with
    | .next s' => run k s'
    | .fault f => .fault f
    | .refused r => .refused r

end Sys2Proof.Machine
end

