-- ==== Sys2Proof/Certificates/Slice0/Obligations.lean ====
section
/-! DEFINITION. The statements for the provers, each a `def Obligations.<Name> : Prop`, in the order of
OBLIGATIONS.json. `R<n>` names a rule of spec/, `log <n>` a choice of the model. -/

namespace Sys2Proof.Claims
open Sys2Proof Sys2Proof.Machine

/-! ### Words the statements use -/

/-- The block may take a host command: it is Idle, under the premise, in a good configuration (R8, R126, R130). -/
abbrev MayIssue (s : State) : Prop :=
  s.launch.cfg.ok = true ∧ s.phase = .idle ∧ s.launch.nonPreemptive = true

/-- `o` is a possible `draw_ovh()` (R11). -/
abbrev Overhead (c : Config) (o : Nat) : Prop := c.ovhMin ≤ o ∧ o ≤ c.ovhMax

/-- `d` is a possible `draw_delay(us)` (R11). -/
abbrev Delay (c : Config) (us d : Nat) : Prop := c.usToCyc us ≤ d ∧ d ≤ c.usToCyc us + c.delayOvhMax

/-- The high time of the pulse that sends a bit (R101, R102). -/
def highTime (c : Config) (b : Bool) : Nat := if b then c.t1hCyc else c.t0hCyc

/-- The two writes of the pulse that sends bit `b` from cycle `start`, `v` being the port's value before it. -/
def pulseEvents (c : Config) (r : PinRes) (v : Byte) (start : Nat) (b : Bool) : List Event :=
  [⟨start, .block, .port, r.port, v ||| r.mask⟩,
   ⟨start + highTime c b, .block, .port, r.port, v &&& ~~~r.mask⟩]

/-- The writes of a frame: pulse `j` sends bit `j` of `w` and starts at `start j` (R132). -/
def frameEvents (c : Config) (r : PinRes) (v : Byte) (start : Nat → Nat) (w : List Bool) : List Event :=
  w.zipIdx.flatMap fun p => pulseEvents c r v (start p.2) p.1

/-- `start 0, start 1, …` are possible start cycles of the `n` pulses of a frame issued at `t0`, and `start n` the
cycle its latch begins (R132, R160). -/
def FrameStarts (c : Config) (t0 n : Nat) (start : Nat → Nat) : Prop :=
  (∃ o, Overhead c o ∧ start 0 = t0 + o) ∧
    ∀ j < n, ∃ o d, Overhead c o ∧ Delay c c.marginUs d ∧ start (j + 1) = start j + c.bitCyc + o + d

/-- The micro-operations of the next `k` steps, in order, as far as the block runs. -/
def opsRun : Nat → State → List MicroOp
  | 0, _ => []
  | k + 1, s =>
    match s.next, step s with
    | some op, .next s' => op :: opsRun k s'
    | _, _ => []

/-- The steps of a successful UPLOAD of `n` colours after its issue (R157). -/
def uploadSteps (n : Nat) : Nat := 48 * n + 3

/-- The value of register `r` of port `a` at cycle `x`, as R37 words it: that of the last event of the list with a time
not after `x`, else the launch value. -/
def lastValue (r : GpioReg) (a x : Nat) (launch : Memory) (trace : List Event) : Byte :=
  match (trace.filter fun e => e.reg == r && e.addr == a && e.time ≤ x).getLast? with
  | some e => e.value
  | none => Memory.read launch a

/-- The lines of the textual form that stand for a host command (R81); a micro-operation has none. -/
def asmLines : Instr → List AsmItem
  | .new pin => [.new pin.toNat]
  | .init pin => [.init pin.toNat]
  | .upload pin cs => .upload pin.toNat cs.length :: cs.map fun c => .color c.r.toNat c.g.toNat c.b.toNat
  | .emit0 => []
  | .emit1 => []
  | .margin => []
  | .latch => []
  | .resolve => []
  | .dirset => []
  | .drivelow => []
  | .ret => []

/-- The host words of an instruction. -/
def hostWordsOf (i : Instr) : List Word :=
  match encode i with
  | .host ws => ws
  | .micro _ => []

/-- The three instructions the host issues. -/
def isCommand (i : Instr) : Prop :=
  (∃ pin, i = .new pin) ∨ (∃ pin, i = .init pin) ∨ ∃ pin cs, i = .upload pin cs

end Sys2Proof.Claims

open Sys2Proof Sys2Proof.Machine Sys2Proof.Claims

/-! ### Reset -/

/-- R38, R200, R201, for every launch: Idle, nothing scheduled, cycle 0, no resource, an empty trace, the GPIO registers
at the launch's free values; and, with nothing from the host, a step leaves that state. The registers that hold no
value at reset have the values of log 5, of which nothing is said here. -/
def Obligations.LaunchLeavesIdleMachine : Prop :=
  (∀ l : Launch,
    (State.ofLaunch l).phase = .idle ∧ (State.ofLaunch l).next = none ∧ (State.ofLaunch l).t = 0 ∧
      (State.ofLaunch l).res = none ∧ (State.ofLaunch l).trace = [] ∧
      (∀ a, Memory.read (State.ofLaunch l).port a = Memory.read l.port a) ∧
      (∀ a, Memory.read (State.ofLaunch l).dir a = Memory.read l.dir a) ∧
      (l.cfg.ok = true → step (State.ofLaunch l) = .next (State.ofLaunch l))) ∧
  State.reset = State.ofLaunch exampleLaunch

/-! ### Encoding -/

/-- R73, R76, R78, R80: decoding what the encoder writes gives the instruction back, with every operand and whatever
words follow. -/
def Obligations.DecodeOfEncodeIsInstruction : Prop :=
  ∀ i : Instr, i.wf = true →
    (∀ ws, encode i = .host ws → ∀ rest, decode (ws ++ rest) = .command i rest) ∧
    (∀ c, encode i = .micro c → (decodeMicro c).toInstr = i)

/-- R73 to R80: whatever decodes as a command is the encoding of that command, word for word, with the rest of the
stream untouched; and every 3-bit code is the code of the micro-operation it decodes to. -/
def Obligations.EncodeOfDecodeIsWords : Prop :=
  (∀ ws i rest, decode ws = .command i rest →
    i.wf = true ∧ ws.length = i.wordCount + rest.length ∧ ∃ pre, encode i = .host pre ∧ ws = pre ++ rest) ∧
  (∀ c : BitVec 3, encode (decodeMicro c).toInstr = .micro c)

/-- Words of table V1 of 95_test_vectors.md and codes of R78 decode as written there. -/
def Obligations.SpecWordsDecode : Prop :=
  decode [0x01070000] = .command (.new 7) [] ∧
  decode [0x02020000] = .command (.init 2) [] ∧
  decode [0x03020001, 0x00FF8001] = .command (.upload 2 [⟨255, 128, 1⟩]) [] ∧
  decode [0x04020000] = .reserved .opcode ∧
  decode [0x02028000] = .reserved .count ∧
  decode [0x03020001, 0x01FF8001] = .reserved .colour ∧
  decode [0x03020002, 0x00000000] = .incomplete ∧
  decodeMicro 0b001 = .emit1 ∧ decodeMicro 0b010 = .margin ∧ decodeMicro 0b100 = .resolve

/-- R79: the verdict on every command word and what follows it. Where a reserved colour word is present and words are
missing as well, the rule's table names two rejections: this says only that it is one of them (the model's pick is
log 10). A rejected command is a refusal of the step, so no state follows. -/
def Obligations.DecoderVerdicts : Prop :=
  ∀ (w : Word) (ws : List Word),
    let opc := w.extractLsb' 24 8
    let pin := w.extractLsb' 16 8
    let cnt := (w.extractLsb' 0 16).toNat
    let reservedIn := ∃ u ∈ ws.take cnt, u.extractLsb' 24 8 ≠ 0#8
    (opc ≠ 1 ∧ opc ≠ 2 ∧ opc ≠ 3 → decode (w :: ws) = .reserved .opcode) ∧
    ((opc = 1 ∨ opc = 2) ∧ cnt ≠ 0 → decode (w :: ws) = .reserved .count) ∧
    (opc = 3 ∧ cnt ≤ ws.length ∧ reservedIn → decode (w :: ws) = .reserved .colour) ∧
    (opc = 3 ∧ ws.length < cnt ∧ ¬ reservedIn → decode (w :: ws) = .incomplete) ∧
    (opc = 3 ∧ ws.length < cnt ∧ reservedIn →
      decode (w :: ws) = .reserved .colour ∨ decode (w :: ws) = .incomplete) ∧
    (opc = 1 ∧ cnt = 0 → decode (w :: ws) = .command (.new pin) ws) ∧
    (opc = 2 ∧ cnt = 0 → decode (w :: ws) = .command (.init pin) ws) ∧
    (opc = 3 ∧ cnt ≤ ws.length ∧ ¬ reservedIn →
      decode (w :: ws) = .command
        (.upload pin ((ws.take cnt).map fun u => ⟨u.extractLsb' 16 8, u.extractLsb' 8 8, u.extractLsb' 0 8⟩))
        (ws.drop cnt)) ∧
    ∀ s : State, s.launch.cfg.ok = true → s.phase = .idle → s.next = none →
      s.input = (w :: ws).map HostItem.word →
      (∀ k, decode (w :: ws) = .reserved k → step s = .refused (.reserved k)) ∧
      (decode (w :: ws) = .incomplete → step s = .refused .incomplete)

/-- R81: the assembler accepts exactly the line sequences of well-formed commands, each `upload` with its colours, and
gives their words. -/
def Obligations.AssemblerAcceptsCommands : Prop :=
  ∀ (lines : List AsmItem) (ws : List Word),
    assemble lines = some ws ↔
      ∃ is : List Instr, (∀ i ∈ is, isCommand i ∧ i.wf = true) ∧ lines = is.flatMap asmLines ∧
        ws = is.flatMap hostWordsOf

/-! ### The step -/

/-- R126: the step of an Idle block is the command its script decodes to, its words taken off the script. -/
def Obligations.StepRunsDecodedCommand : Prop :=
  ∀ (s : State) (i : Instr) (rest : List Word),
    s.launch.cfg.ok = true → s.phase = .idle → s.next = none →
    decode (leadingWords s.input) = .command i rest →
    step s = exec i { s with input := s.input.drop i.wordCount }

/-- R35: the step of a busy block is the micro-operation in `NEXT`. -/
def Obligations.StepRunsScheduledMicroOp : Prop :=
  ∀ (s : State) (op : MicroOp),
    s.launch.cfg.ok = true → legalPair s.phase s.next = true → s.next = some op →
    step s = exec op.toInstr s

/-- R128: while Idle the host lets time pass or writes a GPIO register; the write is recorded with its agent, the
register reads as written and every other register reads as before. That `CMD`, `ID`, `BUF` and the position keep their
values while Idle is the model's choice (DESIGN CHOICE, log 21). -/
def Obligations.HostMovesWhileIdle : Prop :=
  ∀ (s : State) (l : List HostItem),
    s.launch.cfg.ok = true → s.phase = .idle → s.next = none →
    (∀ d, s.input = .wait d :: l → step s = .next { s with t := s.t + d, input := l }) ∧
    (∀ a v, s.input = .write .port a v :: l → Memory.wf s.port →
      ∃ p, step s = .next { s with port := p, trace := s.trace ++ [⟨s.t, .host, .port, a, v⟩], input := l } ∧
        ∀ b, Memory.read p b = if b = a then v else Memory.read s.port b) ∧
    (∀ a v, s.input = .write .dir a v :: l → Memory.wf s.dir →
      ∃ q, step s = .next { s with dir := q, trace := s.trace ++ [⟨s.t, .host, .dir, a, v⟩], input := l } ∧
        ∀ b, Memory.read q b = if b = a then v else Memory.read s.dir b)

/-- R8, R21, R193: a bad configuration is refused before any step; a pair of phase and `NEXT` outside the table of R21
is the model's own fault (log 11). -/
def Obligations.StepStopsOutsideTheRules : Prop :=
  ∀ s : State,
    (s.launch.cfg.ok = false → step s = .refused .badConfig) ∧
    (s.launch.cfg.ok = true → legalPair s.phase s.next = false → step s = .fault .illegalPair)

/-! ### Host commands -/

/-- R120: NEW delivers the identifier, zero-extended, and changes nothing else. -/
def Obligations.NewDeliversHandle : Prop :=
  ∀ (s : State) (pin : PinId), MayIssue s →
    ∃ w : Word, w.toNat = pin.toNat ∧
      exec (.new pin) s = .next { s with results := s.results ++ [⟨s.t, w⟩] }

/-- R24, R126: INIT and UPLOAD latch their operands, INIT an empty buffer, and schedule RESOLVE; nothing else changes.
That the position, which holds no value before RESOLVE writes it (R26), is kept is the model's choice (DESIGN CHOICE,
log 21). -/
def Obligations.CommandIssueLatchesOperands : Prop :=
  ∀ (s : State) (pin : PinId) (cs : List Color), MayIssue s →
    exec (.init pin) s =
      .next { s with cmd := .init, id := pin, buf := [], phase := .resolving, next := some .resolve } ∧
    exec (.upload pin cs) s =
      .next { s with cmd := .upload, id := pin, buf := cs, phase := .resolving, next := some .resolve }

/-- R126, R130: a command asked of a busy block, which the host cannot do, is refused by the model's own name
(log 13); a command in a run without the premise is refused, NEW too, which is the model's reading of R126 (DEDUCED,
log 9), since R130 speaks of INIT and UPLOAD. -/
def Obligations.CommandsNeedIdleAndPremise : Prop :=
  ∀ (s : State) (i : Instr), isCommand i →
    (s.phase ≠ .idle → exec i s = .refused .hostBlocked) ∧
    (s.phase = .idle → s.launch.nonPreemptive = false → exec i s = .refused .preemption)

/-! ### Pulse primitives -/

/-- R101: EMIT0 drives the pin high at its start and low `T0H_CYC` cycles later, lasts `BIT_CYC` cycles and schedules
MARGIN; without a resource it is the fault `InvalidResource`. Everything else is unchanged. -/
def Obligations.Emit0Pulse : Prop :=
  ∀ s : State,
    (∀ r, s.res = some r → Memory.wf s.port →
      let v := Memory.read s.port r.port
      exec .emit0 s = .next { s with
        port  := Memory.write s.port r.port (v &&& ~~~r.mask)
        trace := s.trace ++ [⟨s.t, .block, .port, r.port, v ||| r.mask⟩,
                             ⟨s.t + s.launch.cfg.t0hCyc, .block, .port, r.port, v &&& ~~~r.mask⟩]
        t     := s.t + s.launch.cfg.bitCyc
        next  := some .margin }) ∧
    (s.res = none → exec .emit0 s = .fault .invalidResource)

/-- R102: EMIT1, the same with the high time `T1H_CYC`. -/
def Obligations.Emit1Pulse : Prop :=
  ∀ s : State,
    (∀ r, s.res = some r → Memory.wf s.port →
      let v := Memory.read s.port r.port
      exec .emit1 s = .next { s with
        port  := Memory.write s.port r.port (v &&& ~~~r.mask)
        trace := s.trace ++ [⟨s.t, .block, .port, r.port, v ||| r.mask⟩,
                             ⟨s.t + s.launch.cfg.t1hCyc, .block, .port, r.port, v &&& ~~~r.mask⟩]
        t     := s.t + s.launch.cfg.bitCyc
        next  := some .margin }) ∧
    (s.res = none → exec .emit1 s = .fault .invalidResource)

/-- R103: both pulses last `BIT_CYC` cycles, make two PORT writes, the first setting bit m and the second clearing it,
and leave states that differ in nothing but the time of the second write. -/
def Obligations.PulsePeriodSymmetry : Prop :=
  ∀ (s : State) (r : PinRes), s.res = some r → Memory.wf s.port →
    ∃ (s0 s1 : State) (rise fall : Event),
      exec .emit0 s = .next s0 ∧ exec .emit1 s = .next s1 ∧
      s0.t = s.t + s.launch.cfg.bitCyc ∧
      s0.trace = s.trace ++ [rise, { fall with time := rise.time + s.launch.cfg.t0hCyc }] ∧
      s1 = { s0 with trace := s.trace ++ [rise, { fall with time := rise.time + s.launch.cfg.t1hCyc }] } ∧
      rise.reg = .port ∧ fall.reg = .port ∧ rise.addr = r.port ∧ fall.addr = r.port ∧
      rise.value &&& r.mask = r.mask ∧ fall.value &&& r.mask = 0

/-- R105: a pulse clears bit m of its port byte and changes no other bit, no other port, no direction register, and
neither `RESULT` nor the position. -/
def Obligations.PulseFrame : Prop :=
  ∀ (s s' : State) (i : Instr), i = .emit0 ∨ i = .emit1 → Memory.wf s.port → exec i s = .next s' →
    ∃ r, s.res = some r ∧
      Memory.read s'.port r.port = Memory.read s.port r.port &&& ~~~r.mask ∧
      (∀ a, a ≠ r.port → Memory.read s'.port a = Memory.read s.port a) ∧
      (∀ a, Memory.read s'.dir a = Memory.read s.dir a) ∧
      s'.result = s.result ∧ s'.pos = s.pos ∧ s'.phase = s.phase ∧ s'.res = s.res ∧ s'.cmd = s.cmd ∧
      s'.id = s.id ∧ s'.buf = s.buf ∧ s'.results = s.results ∧ s'.input = s.input ∧ s'.launch = s.launch ∧
      s'.draws = s.draws

/-! ### Serializer -/

/-- R153: MARGIN takes an overhead and a margin delay, advances the position, and schedules what `sched` chooses there;
nothing else changes, no GPIO register is written. -/
def Obligations.MarginAdvances : Prop :=
  ∀ s : State, s.launch.cfg.ok = true → (adv s.pos).ci ≤ s.buf.length →
    ∃ o d p op, Overhead s.launch.cfg o ∧ Delay s.launch.cfg s.launch.cfg.marginUs d ∧
      sched s.buf (adv s.pos) = some (p, op) ∧
      exec .margin s = .next { s with
        t := s.t + o + d, draws := s.draws + 2, pos := adv s.pos, phase := p, next := some op }

/-- R52, R193: a position past the buffer makes MARGIN, and `sched` in it, the fault `BufferIndex`. -/
def Obligations.MarginPastBufferFaults : Prop :=
  ∀ s : State, s.buf.length < (adv s.pos).ci → exec .margin s = .fault .bufferIndex

/-- R154: LATCH takes an overhead and a latch delay of at least 50 µs, writes no GPIO register and schedules RETURN;
nothing else changes. -/
def Obligations.LatchWaits : Prop :=
  ∀ s : State, s.launch.cfg.ok = true →
    ∃ o d, Overhead s.launch.cfg o ∧ Delay s.launch.cfg s.launch.cfg.latchUs d ∧
      s.launch.cfg.usToCyc 50 ≤ d ∧
      exec .latch s = .next { s with t := s.t + o + d, draws := s.draws + 2, next := some .ret }

/-- R152: `sched` gives the latch when `CI = N`; inside the buffer it gives the pulse of the bit at the position, whose
code is `{00, b}`; past the buffer there is nothing to read. -/
def Obligations.ScheduleOfPosition : Prop :=
  ∀ (buf : List Color) (p : Position),
    (p.ci = buf.length → sched buf p = some (.latching, .latch)) ∧
    (∀ h : p.ci < buf.length, ∃ op, sched buf p = some (.transmitting, op) ∧
      op.code = 0b00#2 ++ BitVec.ofBool ((wireByte buf[p.ci] p.bi).getLsbD p.ki)) ∧
    (buf.length < p.ci → sched buf p = none)

/-- R151: a frame has 24 bits a colour; bit `24·i + 8·j + (7 - k)` is bit k of wire byte j of colour i, the wire bytes
being green, red, blue. -/
def Obligations.WireBitsOfFrame : Prop :=
  ∀ buf : List Color,
    (wireBits buf).length = 24 * buf.length ∧
    ∀ (i : Nat) (h : i < buf.length) (k : Fin 8),
      (wireBits buf)[24 * i + (7 - k)]? = some (buf[i].g.getLsbD k) ∧
      (wireBits buf)[24 * i + 8 + (7 - k)]? = some (buf[i].r.getLsbD k) ∧
      (wireBits buf)[24 * i + 16 + (7 - k)]? = some (buf[i].b.getLsbD k)

/-- R155, R157: the position moves to the next bit of R151's order; it never passes the end of the buffer; the count of
pulses still to send falls by one and is 0 exactly at the end. -/
def Obligations.AdvanceIsNextBit : Prop :=
  ∀ (n : Nat) (p : Position),
    24 * (adv p).ci + 8 * (adv p).bi + (7 - (adv p).ki) = 24 * p.ci + 8 * p.bi + (7 - p.ki) + 1 ∧
    (p.ci < n → (adv p).ci ≤ n ∧ (adv p).pulsesLeft n + 1 = p.pulsesLeft n) ∧
    (p.ci ≤ n → (p.pulsesLeft n = 0 ↔ p.ci = n))

/-! ### Control -/

/-- R121, R180: an identifier without a pin gives `RESULT = 0`, phase Failed and RETURN; one with a pin gives
`RESULT = 1` and, for INIT, DIRSET in phase Configuring, for UPLOAD the first position and what `sched` chooses there.
Nothing else changes, no GPIO register is written. That the position, which holds no value outside an UPLOAD (R26), is
kept for INIT and on failure is the model's choice (DESIGN CHOICE, log 21). -/
def Obligations.ResolveOutcome : Prop :=
  ∀ s : State, s.launch.cfg.ok = true →
    ∃ o, Overhead s.launch.cfg o ∧
      (s.launch.cfg.resolve s.id = none →
        exec .resolve s = .next { s with
          t := s.t + o, draws := s.draws + 1, res := none, result := false, phase := .failed,
          next := some .ret }) ∧
      (∀ r, s.launch.cfg.resolve s.id = some r → s.cmd = .init →
        exec .resolve s = .next { s with
          t := s.t + o, draws := s.draws + 1, res := some r, result := true, phase := .configuring,
          next := some .dirset }) ∧
      (∀ r, s.launch.cfg.resolve s.id = some r → s.cmd = .upload →
        ∃ p op, sched s.buf ⟨0, 0, 7⟩ = some (p, op) ∧
          exec .resolve s = .next { s with
            t := s.t + o, draws := s.draws + 1, res := some r, result := true, pos := ⟨0, 0, 7⟩, phase := p,
            next := some op })

/-- The model's reading of R121 where the latched command is NEW, which no run reaches (log 12): the resource and the
flag are written, neither phase nor `NEXT`. -/
def Obligations.ResolveOfNewCommand : Prop :=
  ∀ (s : State) (r : PinRes), s.launch.cfg.ok = true → s.launch.cfg.resolve s.id = some r → s.cmd = .new →
    ∃ o, Overhead s.launch.cfg o ∧
      exec .resolve s = .next { s with t := s.t + o, draws := s.draws + 1, res := some r, result := true }

/-- R124: DIRSET takes an overhead, sets bit m of the direction register, records it and schedules DRIVELOW; every other
register and everything else is unchanged; without a resource it is the fault `InvalidResource`. That
the position, which holds no value outside an UPLOAD (R26), is kept is the model's choice (DESIGN CHOICE, log 21). -/
def Obligations.DirsetSetsOutput : Prop :=
  ∀ s : State,
    (∀ r, s.res = some r → s.launch.cfg.ok = true → Memory.wf s.dir →
      ∃ o q, Overhead s.launch.cfg o ∧
        exec .dirset s = .next { s with
          t := s.t + o, draws := s.draws + 1, dir := q
          trace := s.trace ++ [⟨s.t + o, .block, .dir, r.port, Memory.read s.dir r.port ||| r.mask⟩]
          next := some .drivelow } ∧
        ∀ a, Memory.read q a =
          if a = r.port then Memory.read s.dir r.port ||| r.mask else Memory.read s.dir a) ∧
    (s.res = none → exec .dirset s = .fault .invalidResource)

/-- R125: DRIVELOW takes an overhead, clears bit m of the port byte, records it and schedules RETURN; every other
register and everything else is unchanged; without a resource it is the fault `InvalidResource`. That
the position, which holds no value outside an UPLOAD (R26), is kept is the model's choice (DESIGN CHOICE, log 21). -/
def Obligations.DrivelowDrivesLow : Prop :=
  ∀ s : State,
    (∀ r, s.res = some r → s.launch.cfg.ok = true → Memory.wf s.port →
      ∃ o q, Overhead s.launch.cfg o ∧
        exec .drivelow s = .next { s with
          t := s.t + o, draws := s.draws + 1, port := q
          trace := s.trace ++ [⟨s.t + o, .block, .port, r.port, Memory.read s.port r.port &&& ~~~r.mask⟩]
          next := some .ret } ∧
        ∀ a, Memory.read q a =
          if a = r.port then Memory.read s.port r.port &&& ~~~r.mask else Memory.read s.port a) ∧
    (s.res = none → exec .drivelow s = .fault .invalidResource)

/-- R127: RETURN takes an overhead, delivers the flag as a result word, drops the resource and goes Idle; the flag keeps
its value. Nothing else changes: that `CMD`, `ID`, `BUF` and the position keep theirs is the model's choice (DESIGN
CHOICE, log 21), since R24 binds them up to the return only and R26 gives the position no value after it. -/
def Obligations.ReturnDeliversResult : Prop :=
  ∀ s : State, s.launch.cfg.ok = true →
    ∃ o, Overhead s.launch.cfg o ∧
      exec .ret s = .next { s with
        t := s.t + o, draws := s.draws + 1
        results := s.results ++ [⟨s.t + o, if s.result = true then 0x00000001 else 0x00000000⟩]
        res := none, phase := .idle, next := none }

/-! ### Shared operations -/

/-- R53: each GPIO primitive is a read-modify-write of one register under the mask, recorded at the current cycle with
the value written; every other register of its bank, the other bank, and everything else are unchanged. -/
def Obligations.GpioPrimitives : Prop :=
  ∀ (s : State) (a : Nat) (m : Byte),
    (Memory.wf s.port →
      (∃ p, s.portSet a m = { s with
          port := p, trace := s.trace ++ [⟨s.t, .block, .port, a, Memory.read s.port a ||| m⟩] } ∧
        ∀ b, Memory.read p b = if b = a then Memory.read s.port a ||| m else Memory.read s.port b) ∧
      (∃ p, s.portClr a m = { s with
          port := p, trace := s.trace ++ [⟨s.t, .block, .port, a, Memory.read s.port a &&& ~~~m⟩] } ∧
        ∀ b, Memory.read p b = if b = a then Memory.read s.port a &&& ~~~m else Memory.read s.port b)) ∧
    (Memory.wf s.dir →
      ∃ q, s.dirSet a m = { s with
          dir := q, trace := s.trace ++ [⟨s.t, .block, .dir, a, Memory.read s.dir a ||| m⟩] } ∧
        ∀ b, Memory.read q b = if b = a then Memory.read s.dir a ||| m else Memory.read s.dir b)

/-- R9: the conversion of microseconds to cycles is the ceiling: the least number of cycles whose `10^6`-fold is not
below `us * F_CPU_HZ`. -/
def Obligations.MicrosecondsRoundUp : Prop :=
  ∀ (c : Config) (us k : Nat), c.usToCyc us ≤ k ↔ us * c.fCpuHz ≤ k * 1000000

/-- R11, R12, by the model's form of a free value (log 6): the k-th draw of a run, overhead or delay, is the k-th free
value brought into the bounds of R11, and each step that draws takes the run's next one and uses it up. Bringing a free
value into an interval gives a number of the interval, and every number of it is what some free value gives, so no draw
is shut out. -/
def Obligations.EveryDrawIsPossible : Prop :=
  (∀ (c : Config) (k : Nat), c.ovhDraw k = Config.drawWithin c.ovhMin c.ovhMax (Config.freeDraw k)) ∧
  (∀ (c : Config) (us k : Nat), c.delayDraw us k =
    Config.drawWithin (c.usToCyc us) (c.usToCyc us + c.delayOvhMax) (Config.freeDraw k)) ∧
  (∀ s : State, s.takeOvh = { s with t := s.t + s.launch.cfg.ovhDraw s.draws, draws := s.draws + 1 }) ∧
  (∀ (s : State) (us : Nat),
    s.takeDelay us = { s with t := s.t + s.launch.cfg.delayDraw us s.draws, draws := s.draws + 1 }) ∧
  (∀ lo hi raw : Nat, lo ≤ hi → lo ≤ Config.drawWithin lo hi raw ∧ Config.drawWithin lo hi raw ≤ hi) ∧
  ∀ lo hi d : Nat, lo ≤ d → d ≤ hi → ∃ raw, Config.drawWithin lo hi raw = d

/-- R37: the line's level is a function of the launch and the trace: Undriven where the direction bit is 0, else High or
Low as the port bit is, each register having the value of the last event in the list with a time not after `x`. -/
def Obligations.LineLevel : Prop :=
  ∀ (s : State) (a : Nat) (m : Byte) (x : Nat),
    let P := lastValue .port a x s.launch.port s.trace
    let D := lastValue .dir a x s.launch.dir s.trace
    (D &&& m ≠ 0 → P &&& m ≠ 0 → s.line a m x = .high) ∧
    (D &&& m ≠ 0 → P &&& m = 0 → s.line a m x = .low) ∧
    (D &&& m = 0 → s.line a m x = .undriven)

/-! ### Invariants and whole-machine rules -/

/-- Every launch with a good configuration and canonical register banks, whatever the host's script, meets the
invariant; `State.reset` is one. -/
def Obligations.InvariantHoldsAtLaunch : Prop :=
  (∀ (l : Launch) (script : List HostItem), l.Ok → ({ State.ofLaunch l with input := script } : State).Inv) ∧
  State.reset.Inv

/-- R21, R25, R27, R158: every step keeps the invariant of Safety.lean: a legal pair of phase and `NEXT`, canonical
register banks that the trace accounts for, times in order, and the current command's state. -/
def Obligations.StepKeepsInvariant : Prop :=
  ∀ s s' : State, s.Inv → step s = .next s' → s'.Inv

/-- R193: a state that meets the invariant has no faulting step, and a busy block always steps. -/
def Obligations.BusyBlockNeverSticks : Prop :=
  ∀ s : State, s.Inv → s.StepsWithoutFault ∧ (s.phase ≠ .idle → ∃ s', step s = .next s')

/-- R104, R193: no run of any length, from any good launch and any script of the host, ends in a fault. -/
def Obligations.NoRunFaults : Prop :=
  ∀ (l : Launch) (script : List HostItem) (k : Nat) (f : Fault), l.Ok →
    run k ({ State.ofLaunch l with input := script } : State) ≠ .fault f

/-- R22, R27: a step only appends to the trace, never turns time back, and its events lie between its start and its end
and carry the agent whose step it is. -/
def Obligations.TraceGrowsInTime : Prop :=
  ∀ s s' : State, step s = .next s' →
    s.t ≤ s'.t ∧ ∃ evs, s'.trace = s.trace ++ evs ∧
      ∀ e ∈ evs, s.t ≤ e.time ∧ e.time ≤ s'.t ∧ (e.agent = .host ↔ s.phase = .idle)

/-- R8, R23, R24, R25, R66: a step never changes the launch; a step of a busy block keeps `CMD`, `ID`, `BUF` and the
host's script; it writes `RESULT` only in RESOLVE, `RES` only in RESOLVE and RETURN, and delivers only in RETURN.
R24 keeps `CMD`, `ID` and `BUF` up to the return: that the RETURN step keeps them too is the model's choice (DESIGN
CHOICE, log 21). -/
def Obligations.BusyBlockKeepsOperands : Prop :=
  ∀ s s' : State, step s = .next s' →
    s'.launch = s.launch ∧
    (s.phase ≠ .idle →
      s'.cmd = s.cmd ∧ s'.id = s.id ∧ s'.buf = s.buf ∧ s'.input = s.input ∧
      (s.next ≠ some .resolve → s'.result = s.result) ∧
      (s.next ≠ some .resolve → s.next ≠ some .ret → s'.res = s.res) ∧
      (s.next ≠ some .ret → s'.results = s.results))

/-- R53, R105, R133: a step of a busy block changes no GPIO bit but its pin's own: without a resource none at all, with
one only bits of its mask at its port; and while UPLOAD runs no direction register (D15). -/
def Obligations.BusyBlockTouchesOnlyItsPin : Prop :=
  ∀ s s' : State, s.Inv → s.phase ≠ .idle → step s = .next s' →
    (s.res = none → s'.port = s.port ∧ s'.dir = s.dir) ∧
    (∀ r, s.res = some r →
      (∀ a, a ≠ r.port → Memory.read s'.port a = Memory.read s.port a ∧ Memory.read s'.dir a = Memory.read s.dir a) ∧
      Memory.read s'.port r.port &&& ~~~r.mask = Memory.read s.port r.port &&& ~~~r.mask ∧
      Memory.read s'.dir r.port &&& ~~~r.mask = Memory.read s.dir r.port &&& ~~~r.mask) ∧
    (s.cmd = .upload → s'.dir = s.dir)

/-! ### Whole commands -/

/-- R129, R133: a failed INIT or UPLOAD ends Idle with `RESULT = 0` after exactly two micro-operations, RESOLVE and
RETURN, with no pin write. -/
def Obligations.FailedCommandWritesNoPin : Prop :=
  ∀ (s : State) (pin : PinId) (i : Instr), i = .init pin ∨ (∃ cs, i = .upload pin cs) → MayIssue s →
    s.launch.cfg.resolve pin = none →
    ∃ s1 s2 s3 o1 o2, Overhead s.launch.cfg o1 ∧ Overhead s.launch.cfg o2 ∧
      exec i s = .next s1 ∧ s1.next = some .resolve ∧ step s1 = .next s2 ∧ s2.phase = .failed ∧
      s2.next = some .ret ∧ step s2 = .next s3 ∧ s3.phase = .idle ∧ s3.next = none ∧ s3.result = false ∧
      s3.t = s.t + o1 + o2 ∧ s3.results = s.results ++ [⟨s3.t, 0⟩] ∧
      s3.trace = s.trace ∧ s3.port = s.port ∧ s3.dir = s.dir

/-- R131: the events, the times and the result of INIT, successful and failed, and the line Low from the PORT event
on. -/
def Obligations.InitTiming : Prop :=
  ∀ (s : State) (pin : PinId), s.Inv → MayIssue s →
    (∀ r, s.launch.cfg.resolve pin = some r →
      ∃ s1 s' o1 o2 o3 o4, Overhead s.launch.cfg o1 ∧ Overhead s.launch.cfg o2 ∧ Overhead s.launch.cfg o3 ∧
        Overhead s.launch.cfg o4 ∧
        exec (.init pin) s = .next s1 ∧ run 4 s1 = .next s' ∧
        s'.trace = s.trace ++
          [⟨s.t + o1 + o2, .block, .dir, r.port, Memory.read s.dir r.port ||| r.mask⟩,
           ⟨s.t + o1 + o2 + o3, .block, .port, r.port, Memory.read s.port r.port &&& ~~~r.mask⟩] ∧
        s'.t = s.t + o1 + o2 + o3 + o4 ∧ s'.results = s.results ++ [⟨s'.t, 1⟩] ∧ s'.result = true ∧
        s'.phase = .idle ∧
        Memory.read s'.dir r.port &&& r.mask = r.mask ∧ Memory.read s'.port r.port &&& r.mask = 0 ∧
        ∀ x, s.t + o1 + o2 + o3 ≤ x → s'.line r.port r.mask x = .low) ∧
    (s.launch.cfg.resolve pin = none →
      ∃ s1 s' o1 o2, Overhead s.launch.cfg o1 ∧ Overhead s.launch.cfg o2 ∧
        exec (.init pin) s = .next s1 ∧ run 2 s1 = .next s' ∧ s'.trace = s.trace ∧
        s'.t = s.t + o1 + o2 ∧ s'.results = s.results ++ [⟨s'.t, 0⟩] ∧ s'.phase = .idle)

/-- R204: if the port bit is 1 when INIT starts, the line is High from the DIRSET event to the DRIVELOW event. -/
def Obligations.InitGlitch : Prop :=
  ∀ (s : State) (pin : PinId) (r : PinRes), s.Inv → MayIssue s → s.launch.cfg.resolve pin = some r →
    Memory.read s.port r.port &&& r.mask = r.mask →
    ∃ (s1 s' : State) (rise fall : Event) (o3 : Nat),
      exec (.init pin) s = .next s1 ∧ run 4 s1 = .next s' ∧
      s'.trace = s.trace ++ [rise, fall] ∧ rise.reg = .dir ∧ fall.reg = .port ∧
      Overhead s.launch.cfg o3 ∧ fall.time = rise.time + o3 ∧
      ∀ x, rise.time ≤ x → x < fall.time → s'.line r.port r.mask x = .high

/-- R123, R157: a successful UPLOAD runs RESOLVE, then for every bit of the frame in wire order EMIT1 where the bit is 1
and EMIT0 where it is 0, each followed by MARGIN, then LATCH and RETURN, and is Idle again with `RESULT = 1`. -/
def Obligations.UploadMicroOperations : Prop :=
  ∀ (s : State) (pin : PinId) (cs : List Color) (r : PinRes), MayIssue s → Memory.wf s.port →
    s.launch.cfg.resolve pin = some r →
    ∃ s1 s', exec (.upload pin cs) s = .next s1 ∧ run (uploadSteps cs.length) s1 = .next s' ∧
      opsRun (uploadSteps cs.length) s1 =
        .resolve :: ((wireBits cs).flatMap fun b => [if b then MicroOp.emit1 else MicroOp.emit0, .margin])
          ++ [.latch, .ret] ∧
      s'.phase = .idle ∧ s'.result = true

/-- R132: the timeline of a successful UPLOAD: its pulses start where the draws put them, each sets and clears its pin
at its start and its high time later, the trace gains those `48·N` events and no other, the latch and the result follow;
the pin's port bit is 0 after any pulse, every other GPIO bit is as before. -/
def Obligations.UploadTimeline : Prop :=
  ∀ (s : State) (pin : PinId) (cs : List Color) (r : PinRes), MayIssue s → Memory.wf s.port →
    s.launch.cfg.resolve pin = some r →
    let c := s.launch.cfg
    let v := Memory.read s.port r.port
    ∃ s1 s' start oL dL oRet,
      exec (.upload pin cs) s = .next s1 ∧ run (uploadSteps cs.length) s1 = .next s' ∧
      FrameStarts c s.t (24 * cs.length) start ∧
      Overhead c oL ∧ Delay c c.latchUs dL ∧ Overhead c oRet ∧
      s'.trace = s.trace ++ frameEvents c r v start (wireBits cs) ∧
      (frameEvents c r v start (wireBits cs)).length = 48 * cs.length ∧
      s'.t = start (24 * cs.length) + oL + dL + oRet ∧
      s'.results = s.results ++ [⟨s'.t, 1⟩] ∧ s'.phase = .idle ∧ s'.res = none ∧ s'.result = true ∧
      s'.port = (if cs = [] then s.port else Memory.write s.port r.port (v &&& ~~~r.mask)) ∧
      s'.dir = s.dir ∧ s'.launch = s.launch ∧ s'.input = s.input

/-- R156: an UPLOAD of the empty buffer runs RESOLVE, LATCH and RETURN, writes no GPIO register and returns 1. -/
def Obligations.EmptyUploadIsLatchAlone : Prop :=
  ∀ (s : State) (pin : PinId) (r : PinRes), MayIssue s → s.launch.cfg.resolve pin = some r →
    ∃ s1 s', exec (.upload pin []) s = .next s1 ∧ run 3 s1 = .next s' ∧
      opsRun 3 s1 = [.resolve, .latch, .ret] ∧
      s'.trace = s.trace ∧ s'.port = s.port ∧ s'.dir = s.dir ∧
      s'.results = s.results ++ [⟨s'.t, 1⟩] ∧ s'.phase = .idle ∧
      s.t + s.launch.cfg.usToCyc 50 ≤ s'.t

/-- R212: the least and the greatest number of cycles a successful UPLOAD, a successful INIT and a failed command block
the caller. -/
def Obligations.CommandDurations : Prop :=
  ∀ (s : State) (pin : PinId) (cs : List Color), MayIssue s → Memory.wf s.port →
    let c := s.launch.cfg
    (∀ r, c.resolve pin = some r →
      (∃ s1 s', exec (.upload pin cs) s = .next s1 ∧ run (uploadSteps cs.length) s1 = .next s' ∧
        s'.phase = .idle ∧
        s.t + 2 * c.ovhMin + 24 * cs.length * (c.bitCyc + c.ovhMin + c.usToCyc c.marginUs) + c.ovhMin +
          c.usToCyc c.latchUs ≤ s'.t ∧
        s'.t ≤ s.t + 2 * c.ovhMax +
          24 * cs.length * (c.bitCyc + c.ovhMax + c.usToCyc c.marginUs + c.delayOvhMax) + c.ovhMax +
          c.usToCyc c.latchUs + c.delayOvhMax) ∧
      (∃ s1 s', exec (.init pin) s = .next s1 ∧ run 4 s1 = .next s' ∧ s'.phase = .idle ∧
        s.t + 4 * c.ovhMin ≤ s'.t ∧ s'.t ≤ s.t + 4 * c.ovhMax)) ∧
    (c.resolve pin = none →
      ∀ i, i = .init pin ∨ i = .upload pin cs →
        ∃ s1 s', exec i s = .next s1 ∧ run 2 s1 = .next s' ∧ s'.phase = .idle ∧
          s.t + 2 * c.ovhMin ≤ s'.t ∧ s'.t ≤ s.t + 2 * c.ovhMax)

/-- R162: on a driven pin whose port bit is 0 at issue, the pulses seen on the line from issue to RETURN classify, in
order, as the wire bits of the buffer. The interval observed leaves out its last cycle (DEDUCED, log 19). -/
def Obligations.FrameLaw : Prop :=
  ∀ (s : State) (pin : PinId) (cs : List Color) (r : PinRes) (tol : Nat), s.Inv → MayIssue s →
    s.launch.cfg.resolve pin = some r →
    Memory.read s.dir r.port &&& r.mask = r.mask → Memory.read s.port r.port &&& r.mask = 0 →
    2 * tol < s.launch.cfg.t1hCyc - s.launch.cfg.t0hCyc →
    ∃ s1 s', exec (.upload pin cs) s = .next s1 ∧ run (uploadSteps cs.length) s1 = .next s' ∧
      s'.phase = .idle ∧
      (s'.pulses r.port r.mask s.t (s'.t - s.t)).map (classify s.launch.cfg tol) = (wireBits cs).map some

/-- R159, for a host that does nothing but let `idle` cycles pass between the two: two successful UPLOADs on a driven pin
are separated by at least the stated number of cycles of Low, from the last falling edge of the first to the first rising
edge of the second; the writes of each are those of its own buffer. -/
def Obligations.FramesAreSeparated : Prop :=
  ∀ (s : State) (pin : PinId) (cs ds : List Color) (r : PinRes) (idle : Nat), s.Inv → MayIssue s →
    s.launch.cfg.resolve pin = some r → Memory.read s.dir r.port &&& r.mask = r.mask → cs ≠ [] → ds ≠ [] →
    let c := s.launch.cfg
    let v := Memory.read s.port r.port
    ∃ s1 s2 s3 s4 start start',
      exec (.upload pin cs) s = .next s1 ∧ run (uploadSteps cs.length) s1 = .next s2 ∧
      exec (.upload pin ds) (s2.tick idle) = .next s3 ∧ run (uploadSteps ds.length) s3 = .next s4 ∧
      s4.trace = s.trace ++ frameEvents c r v start (wireBits cs) ++ frameEvents c r v start' (wireBits ds) ∧
      (∃ lastFall b, (wireBits cs).getLast? = some b ∧
        lastFall = start (24 * cs.length - 1) + highTime c b ∧
        lastFall + (c.bitCyc - c.t1hCyc) + 4 * c.ovhMin + c.usToCyc c.marginUs + c.usToCyc c.latchUs ≤ start' 0 ∧
        c.usToCyc 50 ≤ c.usToCyc c.latchUs ∧
        ∀ x, lastFall ≤ x → x < start' 0 → s4.line r.port r.mask x = .low)
end

