-- ==== Sys2Proof/Laws/Encoding.lean ====
section
/-! SUPPORT. The fields of an encoded word are the operands it was built from. -/
namespace Sys2Proof

theorem encodeCommandWord_top (opc : Byte) (pin : PinId) (n : Nat) : (encodeCommandWord opc pin n).top = opc := by
  apply BitVec.eq_of_getLsbD_eq
  intro i hi
  simp only [Word.top, encodeCommandWord, BitVec.getLsbD_extractLsb', BitVec.getLsbD_append]
  have h1 : ¬ 24 + i < 16 := by omega
  have h2 : ¬ 24 + i - 16 < 8 := by omega
  have h3 : 24 + i - 16 - 8 = i := by omega
  simp [hi, h1, h2, h3]

theorem encodeCommandWord_pin (opc : Byte) (pin : PinId) (n : Nat) : (encodeCommandWord opc pin n).pin = pin := by
  apply BitVec.eq_of_getLsbD_eq
  intro i hi
  simp only [Word.pin, encodeCommandWord, BitVec.getLsbD_extractLsb', BitVec.getLsbD_append]
  have h1 : ¬ 16 + i < 16 := by omega
  have h2 : 16 + i - 16 < 8 := by omega
  have h3 : 16 + i - 16 = i := by omega
  simp [hi, h3]

theorem encodeCommandWord_cnt (opc : Byte) (pin : PinId) (n : Nat) (h : n < 65536) :
    (encodeCommandWord opc pin n).cnt = n := by
  have : (encodeCommandWord opc pin n).extractLsb' 0 16 = BitVec.ofNat 16 n := by
    apply BitVec.eq_of_getLsbD_eq
    intro i hi
    rw [BitVec.getLsbD_extractLsb', encodeCommandWord, BitVec.getLsbD_append]
    simp [hi]
  rw [Word.cnt, this, BitVec.toNat_ofNat, Nat.mod_eq_of_lt (by omega)]

theorem encodeColour_top (c : Color) : (encodeColour c).top = 0 := by
  apply BitVec.eq_of_getLsbD_eq
  intro i hi
  simp only [Word.top, encodeColour, BitVec.getLsbD_extractLsb', BitVec.getLsbD_append]
  have h1 : ¬ 24 + i < 8 := by omega
  have h2 : ¬ 24 + i - 8 < 8 := by omega
  have h3 : ¬ 24 + i - 8 - 8 < 8 := by omega
  simp [h1, h2, h3]

theorem encodeColour_colour (c : Color) : (encodeColour c).colour = c := by
  obtain ⟨r, g, b⟩ := c
  simp only [Word.colour, Color.mk.injEq]
  refine ⟨?_, ?_, ?_⟩ <;> apply BitVec.eq_of_getLsbD_eq <;> intro i hi <;>
    simp only [encodeColour, BitVec.getLsbD_extractLsb', BitVec.getLsbD_append]
  · have h1 : ¬ 16 + i < 8 := by omega
    have h2 : ¬ 16 + i - 8 < 8 := by omega
    have h3 : 16 + i - 8 - 8 < 8 := by omega
    have h4 : 16 + i - 8 - 8 = i := by omega
    simp [hi, h1, h2, h4]
  · have h1 : ¬ 8 + i < 8 := by omega
    have h2 : 8 + i - 8 < 8 := by omega
    have h3 : 8 + i - 8 = i := by omega
    simp [hi, h3]
  · simp [hi]

/-- A word that passes the colour check is the encoding of its colour. -/
theorem encodeColour_of_top {w : Word} (h : w.top = 0) : encodeColour w.colour = w := by
  apply BitVec.eq_of_getLsbD_eq
  intro i hi
  have top : ∀ j, j < 8 → w.getLsbD (24 + j) = false := fun j hj => by
    have := congrArg (fun b : Byte => b.getLsbD j) h
    simpa [Word.top, hj] using this
  simp only [encodeColour, Word.colour, BitVec.getLsbD_append, BitVec.getLsbD_extractLsb']
  by_cases h1 : i < 8
  · simp [h1]
  by_cases h2 : i < 16
  · have a : i - 8 < 8 := by omega
    have b : 8 + (i - 8) = i := by omega
    simp [h1, a, b]
  by_cases h3 : i < 24
  · have a : ¬ i - 8 < 8 := by omega
    have b : i - 8 - 8 < 8 := by omega
    have c : 16 + (i - 8 - 8) = i := by omega
    simp [h1, a, b, c]
  · have a : ¬ i - 8 < 8 := by omega
    have b : ¬ i - 8 - 8 < 8 := by omega
    have c : 24 + (i - 24) = i := by omega
    have := top (i - 24) (by omega)
    rw [c] at this
    simp [h1, a, b, this]

/-- A command word is the encoding of its three fields. -/
theorem encodeCommandWord_fields (w : Word) : encodeCommandWord w.top w.pin w.cnt = w := by
  apply BitVec.eq_of_getLsbD_eq
  intro i hi
  simp only [encodeCommandWord, Word.top, Word.pin, Word.cnt, BitVec.getLsbD_append, BitVec.ofNat_toNat]
  by_cases h1 : i < 16
  · simp [h1]
  by_cases h2 : i < 24
  · have a : i - 16 < 8 := by omega
    have b : 16 + (i - 16) = i := by omega
    simp [h1, a, b]
  · have a : ¬ i - 16 < 8 := by omega
    have b : i - 16 - 8 < 8 := by omega
    have c : 24 + (i - 16 - 8) = i := by omega
    simp [h1, a, b, c]

theorem decodeMicro_code (op : MicroOp) : decodeMicro op.code = op := by cases op <;> rfl

/-- What the payload checks of an UPLOAD say of an encoded buffer. -/
theorem reservedColour_encoded (cs : List Color) (rest : List Word) :
    reservedColour cs.length (cs.map encodeColour ++ rest) = false := by
  induction cs with
  | nil => rfl
  | cons c cs ih =>
    rw [List.length_cons, List.map_cons, List.cons_append, reservedColour, if_pos (encodeColour_top c)]
    exact ih

theorem tooShort_iff (n : Nat) (ws : List Word) : tooShort n ws = true ↔ ws.length < n := by
  induction n generalizing ws with
  | zero => simp [tooShort]
  | succ n ih =>
    cases ws with
    | nil => simp [tooShort]
    | cons w ws =>
      rw [tooShort, ih, List.length_cons]
      omega

theorem reservedColour_iff (n : Nat) (ws : List Word) :
    reservedColour n ws = true ↔ ∃ w ∈ ws.take n, w.top ≠ 0 := by
  induction n generalizing ws with
  | zero => simp [reservedColour]
  | succ n ih =>
    cases ws with
    | nil => simp [reservedColour]
    | cons w ws =>
      rw [reservedColour, List.take_succ_cons]
      split
      · rw [ih]
        simp_all
      · simp_all

end Sys2Proof
end

