-- ==== Sys2Proof/Laws/Operands.lean ====
section
/-! SUPPORT. The laws of the serializer's operand functions. -/
namespace Sys2Proof.Machine

/-- `wire_bit` reads one bit of one wire byte. -/
theorem wireBit_eq (c : Color) (j : Fin 3) (k : Fin 8) : wireBit c j k = (wireByte c j).getLsbD k := by
  obtain ⟨k, hk⟩ := k
  rw [wireBit, Bool.eq_iff_iff, beq_iff_eq]
  have one : ∀ i, (1 : Byte).getLsbD i = decide (i = 0) := fun i => by simp [BitVec.getLsbD_one]
  constructor
  · intro h
    have := congrArg (fun b : Byte => b.getLsbD 0) h
    simpa [one] using this
  · intro h
    apply BitVec.eq_of_getLsbD_eq
    intro i hi
    rcases Nat.eq_zero_or_pos i with rfl | pos
    · simpa [one] using h
    · simp [Nat.pos_iff_ne_zero.1 pos]

@[simp] theorem wireByte_zero (c : Color) : wireByte c 0 = c.g := rfl
@[simp] theorem wireByte_one (c : Color) : wireByte c 1 = c.r := rfl
@[simp] theorem wireByte_two (c : Color) : wireByte c 2 = c.b := rfl

@[simp] theorem colourBits_length (c : Color) : (colourBits c).length = 24 := rfl

@[simp] theorem wireBits_nil : wireBits [] = [] := rfl

theorem wireBits_cons (c : Color) (cs : List Color) : wireBits (c :: cs) = colourBits c ++ wireBits cs := rfl

theorem wireBits_append (cs ds : List Color) : wireBits (cs ++ ds) = wireBits cs ++ wireBits ds := by
  induction cs with
  | nil => rfl
  | cons c cs ih => rw [List.cons_append, wireBits_cons, wireBits_cons, ih, List.append_assoc]

/-- `sched` at the end of the buffer. -/
theorem sched_done {buf : List Color} {p : Position} (h : p.ci = buf.length) :
    sched buf p = some (.latching, .latch) := by
  simp [sched, h]

/-- `sched` inside the buffer: the pulse of the bit at the position. -/
theorem sched_bit {buf : List Color} {p : Position} (h : p.ci < buf.length) :
    sched buf p = some (.transmitting, emitOf (wireBit buf[p.ci] p.bi p.ki)) := by
  simp [sched, bufRead, h, Nat.ne_of_lt h]

/-- `sched` outside the buffer reads a colour that is not there. -/
theorem sched_outside {buf : List Color} {p : Position} (h : buf.length < p.ci) : sched buf p = none := by
  simp [sched, bufRead, Nat.ne_of_gt h, Nat.le_of_lt h]

/-- The three cases of `adv`. -/
theorem adv_cases (p : Position) :
    (0 < p.ki ∧ adv p = ⟨p.ci, p.bi, p.ki - 1⟩) ∨ (p.ki = 0 ∧ p.bi < 2 ∧ adv p = ⟨p.ci, p.bi + 1, 7⟩) ∨
      (p.ki = 0 ∧ p.bi = 2 ∧ adv p = ⟨p.ci + 1, 0, 7⟩) := by
  unfold adv
  rcases p with ⟨ci, bi, ki⟩
  simp only
  split
  · exact .inl ⟨‹_›, rfl⟩
  · have : ki = 0 := by omega
    split
    · exact .inr (.inl ⟨this, ‹_›, rfl⟩)
    · exact .inr (.inr ⟨this, by omega, rfl⟩)

end Sys2Proof.Machine
end

