-- ==== Sys2Proof/Laws/Memory.lean ====
section
/-! SUPPORT. The laws of a register bank: read after write, and every write keeps the canonical form. -/
namespace Sys2Proof.Machine

@[simp] theorem Memory.read_nil (a : Nat) : Memory.read [] a = 0 := rfl

theorem Memory.read_cons (k : Nat) (v : Byte) (m : Memory) (a : Nat) :
    Memory.read ((k, v) :: m) a = if k = a then v else Memory.read m a := rfl

/-- A key below every listed one is not listed. -/
theorem Memory.read_of_lt {m : Memory} {a : Nat} (h : ∀ c ∈ m, a < c.1) : Memory.read m a = 0 := by
  induction m with
  | nil => rfl
  | cons c m ih =>
    have hc := h c (by simp)
    rw [Memory.read_cons, if_neg (by omega)]
    exact ih fun d hd => h d (by simp [hd])

theorem Memory.wf_nil : Memory.wf [] := ⟨List.Pairwise.nil, by simp⟩

theorem Memory.wf_cons {k : Nat} {v : Byte} {m : Memory} :
    Memory.wf ((k, v) :: m) ↔ (∀ c ∈ m, k < c.1) ∧ v ≠ 0 ∧ Memory.wf m := by
  simp only [Memory.wf, List.pairwise_cons, List.mem_cons, forall_eq_or_imp]
  exact ⟨fun ⟨⟨h, p⟩, hv, n⟩ => ⟨h, hv, p, n⟩, fun ⟨h, hv, p, n⟩ => ⟨⟨h, p⟩, hv, n⟩⟩

/-- A key of a written bank is the written address or was there before. -/
theorem Memory.mem_write {m : Memory} {a : Nat} {v : Byte} {c : Host.Cell} (h : c ∈ Memory.write m a v) :
    c.1 = a ∨ c ∈ m := by
  induction m with
  | nil =>
    simp only [Memory.write] at h
    split at h <;> simp_all
  | cons d m ih =>
    obtain ⟨k, x⟩ := d
    simp only [Memory.write] at h
    split at h
    · split at h
      · exact .inr h
      · rcases List.mem_cons.1 h with rfl | h
        · exact .inl rfl
        · exact .inr h
    · split at h
      · split at h
        · exact .inr (List.mem_cons_of_mem _ h)
        · rcases List.mem_cons.1 h with rfl | h
          · exact .inl rfl
          · exact .inr (List.mem_cons_of_mem _ h)
      · rcases List.mem_cons.1 h with rfl | h
        · exact .inr List.mem_cons_self
        · exact (ih h).imp_right (List.mem_cons_of_mem _)

/-- Every write keeps the canonical form. -/
theorem Memory.write_wf {m : Memory} (a : Nat) (v : Byte) (h : Memory.wf m) : Memory.wf (Memory.write m a v) := by
  induction m with
  | nil =>
    simp only [Memory.write]
    split
    · exact Memory.wf_nil
    · exact Memory.wf_cons.2 ⟨by simp, ‹_›, Memory.wf_nil⟩
  | cons d m ih =>
    obtain ⟨k, x⟩ := d
    obtain ⟨hk, hx, hm⟩ := Memory.wf_cons.1 h
    simp only [Memory.write]
    split
    · split
      · exact h
      · refine Memory.wf_cons.2 ⟨fun c hc => ?_, ‹_›, h⟩
        rcases List.mem_cons.1 hc with rfl | hc
        · assumption
        · have := hk c hc
          omega
    · split
      · split
        · exact hm
        · subst a
          exact Memory.wf_cons.2 ⟨hk, ‹_›, hm⟩
      · refine Memory.wf_cons.2 ⟨fun c hc => ?_, hx, ih hm⟩
        rcases Memory.mem_write hc with hc | hc
        · omega
        · exact hk c hc

/-- A read at another address does not see a write. -/
theorem Memory.read_write_ne (m : Memory) {a b : Nat} (v : Byte) (h : b ≠ a) :
    Memory.read (Memory.write m a v) b = Memory.read m b := by
  induction m with
  | nil =>
    simp only [Memory.write]
    split
    · rfl
    · rw [Memory.read_cons, if_neg (Ne.symm h)]
  | cons d m ih =>
    obtain ⟨k, x⟩ := d
    simp only [Memory.write]
    split
    · split
      · rfl
      · rw [Memory.read_cons a, if_neg (Ne.symm h)]
    · split
      · subst a
        split <;> simp only [Memory.read_cons, if_neg (Ne.symm h)]
      · simp only [Memory.read_cons, ih]

/-- A read sees the write at its address. -/
theorem Memory.read_write_same {m : Memory} (a : Nat) (v : Byte) (h : Memory.wf m) :
    Memory.read (Memory.write m a v) a = v := by
  induction m with
  | nil =>
    simp only [Memory.write]
    split
    · simp_all
    · rw [Memory.read_cons, if_pos rfl]
  | cons d m ih =>
    obtain ⟨k, x⟩ := d
    obtain ⟨hk, hx, hm⟩ := Memory.wf_cons.1 h
    simp only [Memory.write]
    split
    · split
      · rw [Memory.read_of_lt]
        · simp_all
        · intro c hc
          rcases List.mem_cons.1 hc with rfl | hc
          · assumption
          · have := hk c hc
            omega
      · rw [Memory.read_cons, if_pos rfl]
    · split
      · subst a
        split
        · rw [Memory.read_of_lt hk]
          simp_all
        · rw [Memory.read_cons, if_pos rfl]
      · rw [Memory.read_cons, if_neg (by omega), ih hm]

/-- A read after a write, at any address. -/
theorem Memory.read_write {m : Memory} (a b : Nat) (v : Byte) (h : Memory.wf m) :
    Memory.read (Memory.write m a v) b = if b = a then v else Memory.read m b := by
  split
  · subst b
    exact Memory.read_write_same a v h
  · exact Memory.read_write_ne m v ‹_›

/-- Equal contents are equal data. -/
theorem Memory.ext_of_wf {m m' : Memory} (h : Memory.wf m) (h' : Memory.wf m')
    (e : ∀ a, Memory.read m a = Memory.read m' a) : m = m' := by
  induction m generalizing m' with
  | nil =>
    cases m' with
    | nil => rfl
    | cons d m' =>
      obtain ⟨k, x⟩ := d
      obtain ⟨-, hx, -⟩ := Memory.wf_cons.1 h'
      have := e k
      rw [Memory.read_cons, if_pos rfl] at this
      exact absurd this.symm hx
  | cons d m ih =>
    obtain ⟨k, x⟩ := d
    obtain ⟨hk, hx, hm⟩ := Memory.wf_cons.1 h
    cases m' with
    | nil =>
      have := e k
      rw [Memory.read_cons, if_pos rfl] at this
      exact absurd this hx
    | cons d' m' =>
      obtain ⟨k', x'⟩ := d'
      obtain ⟨hk', hx', hm'⟩ := Memory.wf_cons.1 h'
      have key : k = k' := by
        rcases Nat.lt_trichotomy k k' with lt | eq | gt
        · have := e k
          rw [Memory.read_cons, if_pos rfl, Memory.read_cons, if_neg (by omega),
            Memory.read_of_lt fun c hc => by have := hk' c hc; omega] at this
          exact absurd this hx
        · exact eq
        · have := e k'
          rw [Memory.read_cons, if_neg (by omega), Memory.read_cons, if_pos rfl,
            Memory.read_of_lt fun c hc => by have := hk c hc; omega] at this
          exact absurd this.symm hx'
      subst k'
      have hv := e k
      rw [Memory.read_cons, if_pos rfl, Memory.read_cons, if_pos rfl] at hv
      subst hv
      congr 1
      refine ih hm hm' fun a => ?_
      by_cases ha : k = a
      · subst ha
        rw [Memory.read_of_lt hk, Memory.read_of_lt hk']
      · have := e a
        rwa [Memory.read_cons, if_neg ha, Memory.read_cons, if_neg ha] at this

/-- A second write at an address replaces the first. -/
theorem Memory.write_write {m : Memory} (a : Nat) (v w : Byte) (h : Memory.wf m) :
    Memory.write (Memory.write m a v) a w = Memory.write m a w := by
  refine Memory.ext_of_wf (Memory.write_wf a w (Memory.write_wf a v h)) (Memory.write_wf a w h) fun b => ?_
  rw [Memory.read_write a b w (Memory.write_wf a v h), Memory.read_write a b v h, Memory.read_write a b w h]
  split <;> rfl

/-- Writing what is there changes nothing. -/
theorem Memory.write_read {m : Memory} (a : Nat) (h : Memory.wf m) : Memory.write m a (Memory.read m a) = m := by
  refine Memory.ext_of_wf (Memory.write_wf a _ h) h fun b => ?_
  rw [Memory.read_write a b _ h]
  split
  · subst b
    rfl
  · rfl

end Sys2Proof.Machine
end

