-- ==== Sys2Proof/Laws/State.lean ====
section
/-! SUPPORT. One lemma per field of State per named update, so that no proof unfolds a record update. -/
namespace Sys2Proof.Machine

variable (s : State)

/-! ### `State.setResult` -/

@[simp] theorem State.setResult_phase (b : Bool) : (s.setResult b).phase = s.phase := rfl
@[simp] theorem State.setResult_next (b : Bool) : (s.setResult b).next = s.next := rfl
@[simp] theorem State.setResult_t (b : Bool) : (s.setResult b).t = s.t := rfl
@[simp] theorem State.setResult_result (b : Bool) : (s.setResult b).result = b := rfl
@[simp] theorem State.setResult_cmd (b : Bool) : (s.setResult b).cmd = s.cmd := rfl
@[simp] theorem State.setResult_id (b : Bool) : (s.setResult b).id = s.id := rfl
@[simp] theorem State.setResult_buf (b : Bool) : (s.setResult b).buf = s.buf := rfl
@[simp] theorem State.setResult_res (b : Bool) : (s.setResult b).res = s.res := rfl
@[simp] theorem State.setResult_pos (b : Bool) : (s.setResult b).pos = s.pos := rfl
@[simp] theorem State.setResult_port (b : Bool) : (s.setResult b).port = s.port := rfl
@[simp] theorem State.setResult_dir (b : Bool) : (s.setResult b).dir = s.dir := rfl
@[simp] theorem State.setResult_trace (b : Bool) : (s.setResult b).trace = s.trace := rfl
@[simp] theorem State.setResult_launch (b : Bool) : (s.setResult b).launch = s.launch := rfl
@[simp] theorem State.setResult_input (b : Bool) : (s.setResult b).input = s.input := rfl
@[simp] theorem State.setResult_results (b : Bool) : (s.setResult b).results = s.results := rfl
@[simp] theorem State.setResult_draws (b : Bool) : (s.setResult b).draws = s.draws := rfl

/-! ### `State.setTime` -/

@[simp] theorem State.setTime_phase (n : Nat) : (s.setTime n).phase = s.phase := rfl
@[simp] theorem State.setTime_next (n : Nat) : (s.setTime n).next = s.next := rfl
@[simp] theorem State.setTime_t (n : Nat) : (s.setTime n).t = n := rfl
@[simp] theorem State.setTime_result (n : Nat) : (s.setTime n).result = s.result := rfl
@[simp] theorem State.setTime_cmd (n : Nat) : (s.setTime n).cmd = s.cmd := rfl
@[simp] theorem State.setTime_id (n : Nat) : (s.setTime n).id = s.id := rfl
@[simp] theorem State.setTime_buf (n : Nat) : (s.setTime n).buf = s.buf := rfl
@[simp] theorem State.setTime_res (n : Nat) : (s.setTime n).res = s.res := rfl
@[simp] theorem State.setTime_pos (n : Nat) : (s.setTime n).pos = s.pos := rfl
@[simp] theorem State.setTime_port (n : Nat) : (s.setTime n).port = s.port := rfl
@[simp] theorem State.setTime_dir (n : Nat) : (s.setTime n).dir = s.dir := rfl
@[simp] theorem State.setTime_trace (n : Nat) : (s.setTime n).trace = s.trace := rfl
@[simp] theorem State.setTime_launch (n : Nat) : (s.setTime n).launch = s.launch := rfl
@[simp] theorem State.setTime_input (n : Nat) : (s.setTime n).input = s.input := rfl
@[simp] theorem State.setTime_results (n : Nat) : (s.setTime n).results = s.results := rfl
@[simp] theorem State.setTime_draws (n : Nat) : (s.setTime n).draws = s.draws := rfl

/-! ### `State.tick` -/

@[simp] theorem State.tick_phase (n : Nat) : (s.tick n).phase = s.phase := rfl
@[simp] theorem State.tick_next (n : Nat) : (s.tick n).next = s.next := rfl
@[simp] theorem State.tick_t (n : Nat) : (s.tick n).t = s.t + n := rfl
@[simp] theorem State.tick_result (n : Nat) : (s.tick n).result = s.result := rfl
@[simp] theorem State.tick_cmd (n : Nat) : (s.tick n).cmd = s.cmd := rfl
@[simp] theorem State.tick_id (n : Nat) : (s.tick n).id = s.id := rfl
@[simp] theorem State.tick_buf (n : Nat) : (s.tick n).buf = s.buf := rfl
@[simp] theorem State.tick_res (n : Nat) : (s.tick n).res = s.res := rfl
@[simp] theorem State.tick_pos (n : Nat) : (s.tick n).pos = s.pos := rfl
@[simp] theorem State.tick_port (n : Nat) : (s.tick n).port = s.port := rfl
@[simp] theorem State.tick_dir (n : Nat) : (s.tick n).dir = s.dir := rfl
@[simp] theorem State.tick_trace (n : Nat) : (s.tick n).trace = s.trace := rfl
@[simp] theorem State.tick_launch (n : Nat) : (s.tick n).launch = s.launch := rfl
@[simp] theorem State.tick_input (n : Nat) : (s.tick n).input = s.input := rfl
@[simp] theorem State.tick_results (n : Nat) : (s.tick n).results = s.results := rfl
@[simp] theorem State.tick_draws (n : Nat) : (s.tick n).draws = s.draws := rfl

/-! ### `State.writePort` -/

@[simp] theorem State.writePort_phase (g : Agent) (a : PortAddr) (v : Byte) : (s.writePort g a v).phase = s.phase := rfl
@[simp] theorem State.writePort_next (g : Agent) (a : PortAddr) (v : Byte) : (s.writePort g a v).next = s.next := rfl
@[simp] theorem State.writePort_t (g : Agent) (a : PortAddr) (v : Byte) : (s.writePort g a v).t = s.t := rfl
@[simp] theorem State.writePort_result (g : Agent) (a : PortAddr) (v : Byte) : (s.writePort g a v).result = s.result := rfl
@[simp] theorem State.writePort_cmd (g : Agent) (a : PortAddr) (v : Byte) : (s.writePort g a v).cmd = s.cmd := rfl
@[simp] theorem State.writePort_id (g : Agent) (a : PortAddr) (v : Byte) : (s.writePort g a v).id = s.id := rfl
@[simp] theorem State.writePort_buf (g : Agent) (a : PortAddr) (v : Byte) : (s.writePort g a v).buf = s.buf := rfl
@[simp] theorem State.writePort_res (g : Agent) (a : PortAddr) (v : Byte) : (s.writePort g a v).res = s.res := rfl
@[simp] theorem State.writePort_pos (g : Agent) (a : PortAddr) (v : Byte) : (s.writePort g a v).pos = s.pos := rfl
@[simp] theorem State.writePort_port (g : Agent) (a : PortAddr) (v : Byte) : (s.writePort g a v).port = Memory.write s.port a v := rfl
@[simp] theorem State.writePort_dir (g : Agent) (a : PortAddr) (v : Byte) : (s.writePort g a v).dir = s.dir := rfl
@[simp] theorem State.writePort_trace (g : Agent) (a : PortAddr) (v : Byte) : (s.writePort g a v).trace = s.trace ++ [⟨s.t, g, .port, a, v⟩] := rfl
@[simp] theorem State.writePort_launch (g : Agent) (a : PortAddr) (v : Byte) : (s.writePort g a v).launch = s.launch := rfl
@[simp] theorem State.writePort_input (g : Agent) (a : PortAddr) (v : Byte) : (s.writePort g a v).input = s.input := rfl
@[simp] theorem State.writePort_results (g : Agent) (a : PortAddr) (v : Byte) : (s.writePort g a v).results = s.results := rfl
@[simp] theorem State.writePort_draws (g : Agent) (a : PortAddr) (v : Byte) : (s.writePort g a v).draws = s.draws := rfl

/-! ### `State.writeDir` -/

@[simp] theorem State.writeDir_phase (g : Agent) (a : PortAddr) (v : Byte) : (s.writeDir g a v).phase = s.phase := rfl
@[simp] theorem State.writeDir_next (g : Agent) (a : PortAddr) (v : Byte) : (s.writeDir g a v).next = s.next := rfl
@[simp] theorem State.writeDir_t (g : Agent) (a : PortAddr) (v : Byte) : (s.writeDir g a v).t = s.t := rfl
@[simp] theorem State.writeDir_result (g : Agent) (a : PortAddr) (v : Byte) : (s.writeDir g a v).result = s.result := rfl
@[simp] theorem State.writeDir_cmd (g : Agent) (a : PortAddr) (v : Byte) : (s.writeDir g a v).cmd = s.cmd := rfl
@[simp] theorem State.writeDir_id (g : Agent) (a : PortAddr) (v : Byte) : (s.writeDir g a v).id = s.id := rfl
@[simp] theorem State.writeDir_buf (g : Agent) (a : PortAddr) (v : Byte) : (s.writeDir g a v).buf = s.buf := rfl
@[simp] theorem State.writeDir_res (g : Agent) (a : PortAddr) (v : Byte) : (s.writeDir g a v).res = s.res := rfl
@[simp] theorem State.writeDir_pos (g : Agent) (a : PortAddr) (v : Byte) : (s.writeDir g a v).pos = s.pos := rfl
@[simp] theorem State.writeDir_port (g : Agent) (a : PortAddr) (v : Byte) : (s.writeDir g a v).port = s.port := rfl
@[simp] theorem State.writeDir_dir (g : Agent) (a : PortAddr) (v : Byte) : (s.writeDir g a v).dir = Memory.write s.dir a v := rfl
@[simp] theorem State.writeDir_trace (g : Agent) (a : PortAddr) (v : Byte) : (s.writeDir g a v).trace = s.trace ++ [⟨s.t, g, .dir, a, v⟩] := rfl
@[simp] theorem State.writeDir_launch (g : Agent) (a : PortAddr) (v : Byte) : (s.writeDir g a v).launch = s.launch := rfl
@[simp] theorem State.writeDir_input (g : Agent) (a : PortAddr) (v : Byte) : (s.writeDir g a v).input = s.input := rfl
@[simp] theorem State.writeDir_results (g : Agent) (a : PortAddr) (v : Byte) : (s.writeDir g a v).results = s.results := rfl
@[simp] theorem State.writeDir_draws (g : Agent) (a : PortAddr) (v : Byte) : (s.writeDir g a v).draws = s.draws := rfl

/-! ### `State.goTo` -/

@[simp] theorem State.goTo_phase (p : Phase) (n : Option MicroOp) : (s.goTo p n).phase = p := rfl
@[simp] theorem State.goTo_next (p : Phase) (n : Option MicroOp) : (s.goTo p n).next = n := rfl
@[simp] theorem State.goTo_t (p : Phase) (n : Option MicroOp) : (s.goTo p n).t = s.t := rfl
@[simp] theorem State.goTo_result (p : Phase) (n : Option MicroOp) : (s.goTo p n).result = s.result := rfl
@[simp] theorem State.goTo_cmd (p : Phase) (n : Option MicroOp) : (s.goTo p n).cmd = s.cmd := rfl
@[simp] theorem State.goTo_id (p : Phase) (n : Option MicroOp) : (s.goTo p n).id = s.id := rfl
@[simp] theorem State.goTo_buf (p : Phase) (n : Option MicroOp) : (s.goTo p n).buf = s.buf := rfl
@[simp] theorem State.goTo_res (p : Phase) (n : Option MicroOp) : (s.goTo p n).res = s.res := rfl
@[simp] theorem State.goTo_pos (p : Phase) (n : Option MicroOp) : (s.goTo p n).pos = s.pos := rfl
@[simp] theorem State.goTo_port (p : Phase) (n : Option MicroOp) : (s.goTo p n).port = s.port := rfl
@[simp] theorem State.goTo_dir (p : Phase) (n : Option MicroOp) : (s.goTo p n).dir = s.dir := rfl
@[simp] theorem State.goTo_trace (p : Phase) (n : Option MicroOp) : (s.goTo p n).trace = s.trace := rfl
@[simp] theorem State.goTo_launch (p : Phase) (n : Option MicroOp) : (s.goTo p n).launch = s.launch := rfl
@[simp] theorem State.goTo_input (p : Phase) (n : Option MicroOp) : (s.goTo p n).input = s.input := rfl
@[simp] theorem State.goTo_results (p : Phase) (n : Option MicroOp) : (s.goTo p n).results = s.results := rfl
@[simp] theorem State.goTo_draws (p : Phase) (n : Option MicroOp) : (s.goTo p n).draws = s.draws := rfl

/-! ### `State.goNext` -/

@[simp] theorem State.goNext_phase (op : MicroOp) : (s.goNext op).phase = s.phase := rfl
@[simp] theorem State.goNext_next (op : MicroOp) : (s.goNext op).next = some op := rfl
@[simp] theorem State.goNext_t (op : MicroOp) : (s.goNext op).t = s.t := rfl
@[simp] theorem State.goNext_result (op : MicroOp) : (s.goNext op).result = s.result := rfl
@[simp] theorem State.goNext_cmd (op : MicroOp) : (s.goNext op).cmd = s.cmd := rfl
@[simp] theorem State.goNext_id (op : MicroOp) : (s.goNext op).id = s.id := rfl
@[simp] theorem State.goNext_buf (op : MicroOp) : (s.goNext op).buf = s.buf := rfl
@[simp] theorem State.goNext_res (op : MicroOp) : (s.goNext op).res = s.res := rfl
@[simp] theorem State.goNext_pos (op : MicroOp) : (s.goNext op).pos = s.pos := rfl
@[simp] theorem State.goNext_port (op : MicroOp) : (s.goNext op).port = s.port := rfl
@[simp] theorem State.goNext_dir (op : MicroOp) : (s.goNext op).dir = s.dir := rfl
@[simp] theorem State.goNext_trace (op : MicroOp) : (s.goNext op).trace = s.trace := rfl
@[simp] theorem State.goNext_launch (op : MicroOp) : (s.goNext op).launch = s.launch := rfl
@[simp] theorem State.goNext_input (op : MicroOp) : (s.goNext op).input = s.input := rfl
@[simp] theorem State.goNext_results (op : MicroOp) : (s.goNext op).results = s.results := rfl
@[simp] theorem State.goNext_draws (op : MicroOp) : (s.goNext op).draws = s.draws := rfl

/-! ### `State.setRes` -/

@[simp] theorem State.setRes_phase (r : Option PinRes) : (s.setRes r).phase = s.phase := rfl
@[simp] theorem State.setRes_next (r : Option PinRes) : (s.setRes r).next = s.next := rfl
@[simp] theorem State.setRes_t (r : Option PinRes) : (s.setRes r).t = s.t := rfl
@[simp] theorem State.setRes_result (r : Option PinRes) : (s.setRes r).result = s.result := rfl
@[simp] theorem State.setRes_cmd (r : Option PinRes) : (s.setRes r).cmd = s.cmd := rfl
@[simp] theorem State.setRes_id (r : Option PinRes) : (s.setRes r).id = s.id := rfl
@[simp] theorem State.setRes_buf (r : Option PinRes) : (s.setRes r).buf = s.buf := rfl
@[simp] theorem State.setRes_res (r : Option PinRes) : (s.setRes r).res = r := rfl
@[simp] theorem State.setRes_pos (r : Option PinRes) : (s.setRes r).pos = s.pos := rfl
@[simp] theorem State.setRes_port (r : Option PinRes) : (s.setRes r).port = s.port := rfl
@[simp] theorem State.setRes_dir (r : Option PinRes) : (s.setRes r).dir = s.dir := rfl
@[simp] theorem State.setRes_trace (r : Option PinRes) : (s.setRes r).trace = s.trace := rfl
@[simp] theorem State.setRes_launch (r : Option PinRes) : (s.setRes r).launch = s.launch := rfl
@[simp] theorem State.setRes_input (r : Option PinRes) : (s.setRes r).input = s.input := rfl
@[simp] theorem State.setRes_results (r : Option PinRes) : (s.setRes r).results = s.results := rfl
@[simp] theorem State.setRes_draws (r : Option PinRes) : (s.setRes r).draws = s.draws := rfl

/-! ### `State.setPos` -/

@[simp] theorem State.setPos_phase (p : Position) : (s.setPos p).phase = s.phase := rfl
@[simp] theorem State.setPos_next (p : Position) : (s.setPos p).next = s.next := rfl
@[simp] theorem State.setPos_t (p : Position) : (s.setPos p).t = s.t := rfl
@[simp] theorem State.setPos_result (p : Position) : (s.setPos p).result = s.result := rfl
@[simp] theorem State.setPos_cmd (p : Position) : (s.setPos p).cmd = s.cmd := rfl
@[simp] theorem State.setPos_id (p : Position) : (s.setPos p).id = s.id := rfl
@[simp] theorem State.setPos_buf (p : Position) : (s.setPos p).buf = s.buf := rfl
@[simp] theorem State.setPos_res (p : Position) : (s.setPos p).res = s.res := rfl
@[simp] theorem State.setPos_pos (p : Position) : (s.setPos p).pos = p := rfl
@[simp] theorem State.setPos_port (p : Position) : (s.setPos p).port = s.port := rfl
@[simp] theorem State.setPos_dir (p : Position) : (s.setPos p).dir = s.dir := rfl
@[simp] theorem State.setPos_trace (p : Position) : (s.setPos p).trace = s.trace := rfl
@[simp] theorem State.setPos_launch (p : Position) : (s.setPos p).launch = s.launch := rfl
@[simp] theorem State.setPos_input (p : Position) : (s.setPos p).input = s.input := rfl
@[simp] theorem State.setPos_results (p : Position) : (s.setPos p).results = s.results := rfl
@[simp] theorem State.setPos_draws (p : Position) : (s.setPos p).draws = s.draws := rfl

/-! ### `State.latchCommand` -/

@[simp] theorem State.latchCommand_phase (c : Command) (i : PinId) (cs : List Color) : (s.latchCommand c i cs).phase = s.phase := rfl
@[simp] theorem State.latchCommand_next (c : Command) (i : PinId) (cs : List Color) : (s.latchCommand c i cs).next = s.next := rfl
@[simp] theorem State.latchCommand_t (c : Command) (i : PinId) (cs : List Color) : (s.latchCommand c i cs).t = s.t := rfl
@[simp] theorem State.latchCommand_result (c : Command) (i : PinId) (cs : List Color) : (s.latchCommand c i cs).result = s.result := rfl
@[simp] theorem State.latchCommand_cmd (c : Command) (i : PinId) (cs : List Color) : (s.latchCommand c i cs).cmd = c := rfl
@[simp] theorem State.latchCommand_id (c : Command) (i : PinId) (cs : List Color) : (s.latchCommand c i cs).id = i := rfl
@[simp] theorem State.latchCommand_buf (c : Command) (i : PinId) (cs : List Color) : (s.latchCommand c i cs).buf = cs := rfl
@[simp] theorem State.latchCommand_res (c : Command) (i : PinId) (cs : List Color) : (s.latchCommand c i cs).res = s.res := rfl
@[simp] theorem State.latchCommand_pos (c : Command) (i : PinId) (cs : List Color) : (s.latchCommand c i cs).pos = s.pos := rfl
@[simp] theorem State.latchCommand_port (c : Command) (i : PinId) (cs : List Color) : (s.latchCommand c i cs).port = s.port := rfl
@[simp] theorem State.latchCommand_dir (c : Command) (i : PinId) (cs : List Color) : (s.latchCommand c i cs).dir = s.dir := rfl
@[simp] theorem State.latchCommand_trace (c : Command) (i : PinId) (cs : List Color) : (s.latchCommand c i cs).trace = s.trace := rfl
@[simp] theorem State.latchCommand_launch (c : Command) (i : PinId) (cs : List Color) : (s.latchCommand c i cs).launch = s.launch := rfl
@[simp] theorem State.latchCommand_input (c : Command) (i : PinId) (cs : List Color) : (s.latchCommand c i cs).input = s.input := rfl
@[simp] theorem State.latchCommand_results (c : Command) (i : PinId) (cs : List Color) : (s.latchCommand c i cs).results = s.results := rfl
@[simp] theorem State.latchCommand_draws (c : Command) (i : PinId) (cs : List Color) : (s.latchCommand c i cs).draws = s.draws := rfl

/-! ### `State.deliver` -/

@[simp] theorem State.deliver_phase (w : Word) : (s.deliver w).phase = s.phase := rfl
@[simp] theorem State.deliver_next (w : Word) : (s.deliver w).next = s.next := rfl
@[simp] theorem State.deliver_t (w : Word) : (s.deliver w).t = s.t := rfl
@[simp] theorem State.deliver_result (w : Word) : (s.deliver w).result = s.result := rfl
@[simp] theorem State.deliver_cmd (w : Word) : (s.deliver w).cmd = s.cmd := rfl
@[simp] theorem State.deliver_id (w : Word) : (s.deliver w).id = s.id := rfl
@[simp] theorem State.deliver_buf (w : Word) : (s.deliver w).buf = s.buf := rfl
@[simp] theorem State.deliver_res (w : Word) : (s.deliver w).res = s.res := rfl
@[simp] theorem State.deliver_pos (w : Word) : (s.deliver w).pos = s.pos := rfl
@[simp] theorem State.deliver_port (w : Word) : (s.deliver w).port = s.port := rfl
@[simp] theorem State.deliver_dir (w : Word) : (s.deliver w).dir = s.dir := rfl
@[simp] theorem State.deliver_trace (w : Word) : (s.deliver w).trace = s.trace := rfl
@[simp] theorem State.deliver_launch (w : Word) : (s.deliver w).launch = s.launch := rfl
@[simp] theorem State.deliver_input (w : Word) : (s.deliver w).input = s.input := rfl
@[simp] theorem State.deliver_results (w : Word) : (s.deliver w).results = s.results ++ [⟨s.t, w⟩] := rfl
@[simp] theorem State.deliver_draws (w : Word) : (s.deliver w).draws = s.draws := rfl

/-! ### `State.setInput` -/

@[simp] theorem State.setInput_phase (l : List HostItem) : (s.setInput l).phase = s.phase := rfl
@[simp] theorem State.setInput_next (l : List HostItem) : (s.setInput l).next = s.next := rfl
@[simp] theorem State.setInput_t (l : List HostItem) : (s.setInput l).t = s.t := rfl
@[simp] theorem State.setInput_result (l : List HostItem) : (s.setInput l).result = s.result := rfl
@[simp] theorem State.setInput_cmd (l : List HostItem) : (s.setInput l).cmd = s.cmd := rfl
@[simp] theorem State.setInput_id (l : List HostItem) : (s.setInput l).id = s.id := rfl
@[simp] theorem State.setInput_buf (l : List HostItem) : (s.setInput l).buf = s.buf := rfl
@[simp] theorem State.setInput_res (l : List HostItem) : (s.setInput l).res = s.res := rfl
@[simp] theorem State.setInput_pos (l : List HostItem) : (s.setInput l).pos = s.pos := rfl
@[simp] theorem State.setInput_port (l : List HostItem) : (s.setInput l).port = s.port := rfl
@[simp] theorem State.setInput_dir (l : List HostItem) : (s.setInput l).dir = s.dir := rfl
@[simp] theorem State.setInput_trace (l : List HostItem) : (s.setInput l).trace = s.trace := rfl
@[simp] theorem State.setInput_launch (l : List HostItem) : (s.setInput l).launch = s.launch := rfl
@[simp] theorem State.setInput_input (l : List HostItem) : (s.setInput l).input = l := rfl
@[simp] theorem State.setInput_results (l : List HostItem) : (s.setInput l).results = s.results := rfl
@[simp] theorem State.setInput_draws (l : List HostItem) : (s.setInput l).draws = s.draws := rfl

/-! ### `State.useDraw` -/

@[simp] theorem State.useDraw_phase : (s.useDraw).phase = s.phase := rfl
@[simp] theorem State.useDraw_next : (s.useDraw).next = s.next := rfl
@[simp] theorem State.useDraw_t : (s.useDraw).t = s.t := rfl
@[simp] theorem State.useDraw_result : (s.useDraw).result = s.result := rfl
@[simp] theorem State.useDraw_cmd : (s.useDraw).cmd = s.cmd := rfl
@[simp] theorem State.useDraw_id : (s.useDraw).id = s.id := rfl
@[simp] theorem State.useDraw_buf : (s.useDraw).buf = s.buf := rfl
@[simp] theorem State.useDraw_res : (s.useDraw).res = s.res := rfl
@[simp] theorem State.useDraw_pos : (s.useDraw).pos = s.pos := rfl
@[simp] theorem State.useDraw_port : (s.useDraw).port = s.port := rfl
@[simp] theorem State.useDraw_dir : (s.useDraw).dir = s.dir := rfl
@[simp] theorem State.useDraw_trace : (s.useDraw).trace = s.trace := rfl
@[simp] theorem State.useDraw_launch : (s.useDraw).launch = s.launch := rfl
@[simp] theorem State.useDraw_input : (s.useDraw).input = s.input := rfl
@[simp] theorem State.useDraw_results : (s.useDraw).results = s.results := rfl
@[simp] theorem State.useDraw_draws : (s.useDraw).draws = s.draws + 1 := rfl

end Sys2Proof.Machine
end

