-- ==== Sys2Proof/Laws/Ops.lean ====
section
/-! SUPPORT. One lemma per shared operation, saying once everything it does. -/
namespace Sys2Proof.Machine

/-! ### Operations that always end in a state: that state, field by field -/

theorem State.takeOvh_eq (s : State) :
    s.takeOvh = { s with t := s.t + s.launch.cfg.ovhDraw s.draws, draws := s.draws + 1 } := rfl

theorem State.takeDelay_eq (s : State) (us : Nat) :
    s.takeDelay us = { s with t := s.t + s.launch.cfg.delayDraw us s.draws, draws := s.draws + 1 } := rfl

theorem State.portSet_eq (s : State) (a : Nat) (m : Byte) :
    s.portSet a m = { s with port := Memory.write s.port a (Memory.read s.port a ||| m),
                             trace := s.trace ++ [⟨s.t, .block, .port, a, Memory.read s.port a ||| m⟩] } := rfl

theorem State.portClr_eq (s : State) (a : Nat) (m : Byte) :
    s.portClr a m = { s with port := Memory.write s.port a (Memory.read s.port a &&& ~~~m),
                             trace := s.trace ++ [⟨s.t, .block, .port, a, Memory.read s.port a &&& ~~~m⟩] } := rfl

theorem State.dirSet_eq (s : State) (a : Nat) (m : Byte) :
    s.dirSet a m = { s with dir := Memory.write s.dir a (Memory.read s.dir a ||| m),
                            trace := s.trace ++ [⟨s.t, .block, .dir, a, Memory.read s.dir a ||| m⟩] } := rfl

theorem State.raiseInvalidDeviceIdentifier_eq (s : State) :
    s.raiseInvalidDeviceIdentifier = { s with result := false, phase := .failed, next := some .ret } := rfl

theorem State.finish_eq (s : State) :
    s.finish = { s with results := s.results ++ [⟨s.t, resultWord s.result⟩], res := none, phase := .idle,
                        next := none } := rfl

theorem State.start_eq (s : State) (c : Command) (id : PinId) (cs : List Color) :
    s.start c id cs = { s with cmd := c, id := id, buf := cs, phase := .resolving, next := some .resolve } := rfl

/-- A pulse clears the bits it sets, so the two writes leave the one value (R105). -/
theorem or_and_not (v m : Byte) : (v ||| m) &&& ~~~m = v &&& ~~~m := by
  apply BitVec.eq_of_getLsbD_eq
  intro i _
  simp only [BitVec.getLsbD_and, BitVec.getLsbD_or, BitVec.getLsbD_not]
  cases v.getLsbD i <;> cases m.getLsbD i <;> simp

/-- A pulse on a bank in canonical form (R101, R102, R105). -/
theorem State.pulse_eq (s : State) (high : Nat) (r : PinRes) (h : Memory.wf s.port) :
    s.pulse high r =
      { s with
        port  := Memory.write s.port r.port (Memory.read s.port r.port &&& ~~~r.mask)
        trace := s.trace ++
          [⟨s.t, .block, .port, r.port, Memory.read s.port r.port ||| r.mask⟩,
           ⟨s.t + high, .block, .port, r.port, Memory.read s.port r.port &&& ~~~r.mask⟩]
        t     := s.t + s.launch.cfg.bitCyc
        next  := some .margin } := by
  simp only [State.pulse, State.portSet, State.portClr, State.writePort, State.setTime, State.goNext,
    Memory.read_write_same _ _ h, Memory.write_write _ _ _ h, or_and_not, List.append_assoc, List.cons_append,
    List.nil_append]

/-! ### Operations that can stop: every way they end -/

theorem State.withRes_some {s : State} {r : PinRes} (f : PinRes → State) (h : s.res = some r) :
    s.withRes f = .next (f r) := by
  simp [State.withRes, h]

theorem State.withRes_none {s : State} (f : PinRes → State) (h : s.res = none) :
    s.withRes f = .fault .invalidResource := by
  simp [State.withRes, h]

/-- If `withRes` answers a next state, there is a resource and the state is the body's. -/
theorem State.withRes_next {s s' : State} {f : PinRes → State} (h : s.withRes f = .next s') :
    ∃ r, s.res = some r ∧ s' = f r := by
  unfold State.withRes at h
  split at h
  · cases h
  · cases h
    exact ⟨_, ‹_›, rfl⟩

/-- If `schedule` answers a next state, `sched` gave its phase and micro-operation. -/
theorem State.schedule_next {s s' : State} (h : s.schedule = .next s') :
    ∃ p op, sched s.buf s.pos = some (p, op) ∧ s' = s.goTo p (some op) := by
  unfold State.schedule at h
  split at h
  · cases h
  · cases h
    exact ⟨_, _, ‹_›, rfl⟩

theorem State.schedule_some {s : State} {p : Phase} {op : MicroOp} (h : sched s.buf s.pos = some (p, op)) :
    s.schedule = .next (s.goTo p (some op)) := by
  simp [State.schedule, h]

theorem State.schedule_none {s : State} (h : sched s.buf s.pos = none) : s.schedule = .fault .bufferIndex := by
  simp [State.schedule, h]

/-- If a command's issue answers a next state, the block was Idle, the premise holds and the state is the body's. -/
theorem State.issue_next {s s' : State} {f : State → State} (h : s.issue f = .next s') :
    s.phase = .idle ∧ s.launch.nonPreemptive = true ∧ s' = f s := by
  unfold State.issue at h
  split at h
  · split at h
    · cases h
      exact ⟨‹_›, ‹_›, rfl⟩
    · cases h
  · cases h

theorem State.issue_idle {s : State} (f : State → State) (hp : s.phase = .idle)
    (hn : s.launch.nonPreemptive = true) : s.issue f = .next (f s) := by
  simp [State.issue, hp, hn]

/-- A host write touches one bank, at one address, and is recorded. -/
theorem State.hostWrite_eq (s : State) (r : GpioReg) (a : Nat) (v : Byte) :
    s.hostWrite r a v =
      { s with
        port  := if r = .port then Memory.write s.port a v else s.port
        dir   := if r = .dir then Memory.write s.dir a v else s.dir
        trace := s.trace ++ [⟨s.t, .host, r, a, v⟩] } := by
  cases r <;> rfl

end Sys2Proof.Machine
end

