-- ==== Sys2Proof/Laws/Parameters.lean ====
section
/-! SUPPORT. The laws of the configuration: what R8 guarantees, the bounds of the draws. -/
namespace Sys2Proof

/-- A draw lies in its interval, whatever the free value is. -/
theorem Config.drawWithin_bounds {lo hi : Nat} (raw : Nat) (h : lo ≤ hi) :
    lo ≤ Config.drawWithin lo hi raw ∧ Config.drawWithin lo hi raw ≤ hi := by
  unfold Config.drawWithin
  split
  · omega
  · have := Nat.mod_lt raw (show 0 < hi - lo + 1 by omega)
    omega

/-- The constraints of R8 and R30, one by one. -/
theorem Config.ok_iff (c : Config) :
    c.ok = true ↔ 0 < c.fCpuHz ∧ 0 < c.t0hCyc ∧ c.t0hCyc < c.t1hCyc ∧ c.t1hCyc < c.bitCyc ∧
      c.ovhMin ≤ c.ovhMax ∧ 50 ≤ c.latchUs ∧ ∀ p ∈ c.pins, popcount p.2.mask = 1 := by
  simp [Config.ok, and_assoc]

/-- An overhead draw lies in `[OVH_MIN, OVH_MAX]`. -/
theorem Config.ovhDraw_bounds {c : Config} (h : c.ok = true) (k : Nat) :
    c.ovhMin ≤ c.ovhDraw k ∧ c.ovhDraw k ≤ c.ovhMax :=
  Config.drawWithin_bounds _ ((Config.ok_iff c).1 h).2.2.2.2.1

/-- A delay draw lies in `[us_to_cyc(us), us_to_cyc(us) + DELAY_OVH_MAX]`. -/
theorem Config.delayDraw_bounds (c : Config) (us k : Nat) :
    c.usToCyc us ≤ c.delayDraw us k ∧ c.delayDraw us k ≤ c.usToCyc us + c.delayOvhMax :=
  Config.drawWithin_bounds _ (Nat.le_add_right _ _)

/-- What the pin list looks up is listed. -/
theorem lookup_mem {l : List (PinId × PinRes)} {id : PinId} {r : PinRes} (h : l.lookup id = some r) : (id, r) ∈ l := by
  induction l with
  | nil => simp at h
  | cons p l ih =>
    obtain ⟨k, v⟩ := p
    rw [List.lookup_cons] at h
    split at h
    · simp_all
    · exact List.mem_cons_of_mem _ (ih h)

/-- Every resource `resolve` produces has a single-bit mask (R30). -/
theorem Config.resolve_popcount {c : Config} (h : c.ok = true) {id : PinId} {r : PinRes}
    (hr : c.resolve id = some r) : popcount r.mask = 1 :=
  ((Config.ok_iff c).1 h).2.2.2.2.2.2 _ (lookup_mem hr)

/-- A mask with a bit set is not 0. -/
theorem mask_ne_zero {m : Byte} (h : popcount m = 1) : m ≠ 0 := by
  rintro rfl
  exact absurd h (by decide)

end Sys2Proof
end

