-- ==== Sys2Proof/Laws/Trace.lean ====
section
/-! SUPPORT. The laws of the trace: replaying it, reading a register at a cycle, the runs of High. -/
namespace Sys2Proof.Machine

/-- Setting masked bits leaves them set. -/
theorem or_and_mask (v m : Byte) : (v ||| m) &&& m = m := by
  apply BitVec.eq_of_getLsbD_eq
  intro i _
  simp only [BitVec.getLsbD_and, BitVec.getLsbD_or]
  cases v.getLsbD i <;> cases m.getLsbD i <;> rfl

/-- Clearing masked bits leaves them clear. -/
theorem and_not_and_mask (v m : Byte) : (v &&& ~~~m) &&& m = 0 := by
  apply BitVec.eq_of_getLsbD_eq
  intro i _
  simp only [BitVec.getLsbD_and, BitVec.getLsbD_not]
  cases v.getLsbD i <;> cases m.getLsbD i <;> simp

/-- A bank after two traces. -/
theorem replay_append (r : GpioReg) (m : Memory) (l l' : List Event) :
    replay r m (l ++ l') = replay r (replay r m l) l' := by
  induction l generalizing m with
  | nil => rfl
  | cons e l ih => exact ih _

/-- A register after two traces. -/
theorem regAt_append (r : GpioReg) (a x : Nat) (v : Byte) (l l' : List Event) :
    regAt r a x v (l ++ l') = regAt r a x (regAt r a x v l) l' := by
  induction l generalizing v with
  | nil => rfl
  | cons e l ih => exact ih _

/-- Events of other registers and later events do not count. -/
theorem regAt_skip {r : GpioReg} {a x : Nat} {v : Byte} {l : List Event}
    (h : ∀ e ∈ l, ¬ (e.reg = r ∧ e.addr = a ∧ e.time ≤ x)) : regAt r a x v l = v := by
  induction l with
  | nil => rfl
  | cons e l ih =>
    rw [regAt, if_neg (h e (by simp))]
    exact ih fun f hf => h f (by simp [hf])

/-- Once a whole trace is past, a register reads as its bank does. -/
theorem regAt_replay {r : GpioReg} (a x : Nat) {m : Memory} (wf : Memory.wf m) {l : List Event}
    (h : ∀ e ∈ l, e.time ≤ x) : regAt r a x (Memory.read m a) l = Memory.read (replay r m l) a := by
  induction l generalizing m with
  | nil => rfl
  | cons e l ih =>
    rw [regAt, replay]
    have ht := h e (by simp)
    have hl : ∀ f ∈ l, f.time ≤ x := fun f hf => h f (by simp [hf])
    by_cases hr : e.reg = r
    · rw [if_pos hr, ← ih (Memory.write_wf _ _ wf) hl, Memory.read_write _ _ _ wf]
      congr 1
      by_cases ha : e.addr = a
      · rw [if_pos ⟨hr, ha, ht⟩, if_pos ha.symm]
      · rw [if_neg (fun h => ha h.2.1), if_neg (fun h => ha h.symm)]
    · rw [if_neg hr, if_neg (fun h => hr h.1)]
      exact ih wf hl

/-- Cycles that are not High before a run of High. -/
theorem trueRuns_false (n : Nat) (l : List Bool) : trueRuns 0 (List.replicate n false ++ l) = trueRuns 0 l := by
  induction n with
  | zero => rfl
  | succ n ih => rw [List.replicate_succ, List.cons_append, trueRuns, ih]

/-- A run of High grows by its cycles. -/
theorem trueRuns_true (k n : Nat) (l : List Bool) :
    trueRuns k (List.replicate n true ++ l) = trueRuns (k + n) l := by
  induction n generalizing k with
  | zero => rfl
  | succ n ih =>
    have one (l : List Bool) : trueRuns k (true :: l) = trueRuns (k + 1) l := by cases k <;> rfl
    rw [List.replicate_succ, List.cons_append, one, ih, Nat.add_assoc, Nat.add_comm 1 n]

end Sys2Proof.Machine
end

