-- ==== Sys2Proof/Laws/Invariant.lean ====
section
/-! SUPPORT. The half of the invariant that is about the GPIO registers and the trace, kept by every shared
operation; and what scheduling establishes of the other half. -/
namespace Sys2Proof.Machine

/-- The configuration, the register banks and the trace are as `State.Inv` says. -/
structure TraceOk (s : State) : Prop where
  cfgOk : s.launch.cfg.ok = true
  portWf : Memory.wf s.port
  dirWf : Memory.wf s.dir
  launchPortWf : Memory.wf s.launch.port
  launchDirWf : Memory.wf s.launch.dir
  portTraced : s.port = replay .port s.launch.port s.trace
  dirTraced : s.dir = replay .dir s.launch.dir s.trace
  traceOrdered : s.trace.Pairwise fun e f => e.time ≤ f.time
  tracePast : ∀ e ∈ s.trace, e.time ≤ s.t

theorem State.Inv.traceOk {s : State} (h : s.Inv) : TraceOk s :=
  ⟨h.cfgOk, h.portWf, h.dirWf, h.launchPortWf, h.launchDirWf, h.portTraced, h.dirTraced, h.traceOrdered,
    h.tracePast⟩

/-- The two halves make the invariant. -/
theorem TraceOk.inv {s : State} (c : TraceOk s) (p : legalPair s.phase s.next = true)
    (n : s.phase ≠ .idle → s.launch.nonPreemptive = true) (k : s.CommandOk) : s.Inv :=
  ⟨c.cfgOk, p, c.portWf, c.dirWf, c.launchPortWf, c.launchDirWf, c.portTraced, c.dirTraced, c.traceOrdered,
    c.tracePast, n, k⟩

/-- An update of other fields keeps it, as long as time does not go back. -/
theorem TraceOk.of_eq {s s' : State} (c : TraceOk s) (hl : s'.launch = s.launch) (hp : s'.port = s.port)
    (hd : s'.dir = s.dir) (ht : s'.trace = s.trace) (h : s.t ≤ s'.t) : TraceOk s' := by
  constructor
  · rw [hl]; exact c.cfgOk
  · rw [hp]; exact c.portWf
  · rw [hd]; exact c.dirWf
  · rw [hl]; exact c.launchPortWf
  · rw [hl]; exact c.launchDirWf
  · rw [hp, hl, ht]; exact c.portTraced
  · rw [hd, hl, ht]; exact c.dirTraced
  · rw [ht]; exact c.traceOrdered
  · rw [ht]
    exact fun e he => Nat.le_trans (c.tracePast e he) h

/-- An event at the current cycle keeps the trace in order and past. -/
theorem TraceOk.snoc {s : State} (c : TraceOk s) {e : Event} (h : e.time = s.t) :
    (s.trace ++ [e]).Pairwise (fun e f => e.time ≤ f.time) ∧ ∀ f ∈ s.trace ++ [e], f.time ≤ s.t := by
  refine ⟨List.pairwise_append.2 ⟨c.traceOrdered, List.pairwise_singleton .., fun f hf g hg => ?_⟩, fun f hf => ?_⟩
  · rw [List.mem_singleton.1 hg, h]
    exact c.tracePast f hf
  · rcases List.mem_append.1 hf with hf | hf
    · exact c.tracePast f hf
    · exact Nat.le_of_eq (by rw [List.mem_singleton.1 hf, h])

theorem TraceOk.writePort {s : State} (c : TraceOk s) (g : Agent) (a : Nat) (v : Byte) :
    TraceOk (s.writePort g a v) := by
  obtain ⟨ordered, past⟩ := c.snoc (e := ⟨s.t, g, .port, a, v⟩) rfl
  refine ⟨c.cfgOk, Memory.write_wf _ _ c.portWf, c.dirWf, c.launchPortWf, c.launchDirWf, ?_, ?_, ordered, past⟩
  · simp only [State.writePort_port, State.writePort_trace, State.writePort_launch, replay_append]
    rw [← c.portTraced]
    rfl
  · simp only [State.writePort_dir, State.writePort_trace, State.writePort_launch, replay_append]
    rw [← c.dirTraced]
    rfl

theorem TraceOk.writeDir {s : State} (c : TraceOk s) (g : Agent) (a : Nat) (v : Byte) :
    TraceOk (s.writeDir g a v) := by
  obtain ⟨ordered, past⟩ := c.snoc (e := ⟨s.t, g, .dir, a, v⟩) rfl
  refine ⟨c.cfgOk, c.portWf, Memory.write_wf _ _ c.dirWf, c.launchPortWf, c.launchDirWf, ?_, ?_, ordered, past⟩
  · simp only [State.writeDir_port, State.writeDir_trace, State.writeDir_launch, replay_append]
    rw [← c.portTraced]
    rfl
  · simp only [State.writeDir_dir, State.writeDir_trace, State.writeDir_launch, replay_append]
    rw [← c.dirTraced]
    rfl

theorem TraceOk.takeOvh {s : State} (c : TraceOk s) : TraceOk s.takeOvh :=
  c.of_eq rfl rfl rfl rfl (Nat.le_add_right _ _)

theorem TraceOk.takeDelay {s : State} (c : TraceOk s) (us : Nat) : TraceOk (s.takeDelay us) :=
  c.of_eq rfl rfl rfl rfl (Nat.le_add_right _ _)

/-- A pulse keeps it, its second write lying inside the bit period. -/
theorem TraceOk.pulse {s : State} (c : TraceOk s) (high : Nat) (h : high ≤ s.launch.cfg.bitCyc) (r : PinRes) :
    TraceOk (s.pulse high r) := by
  have c1 : TraceOk (s.portSet r.port r.mask) := c.writePort ..
  have c2 : TraceOk ((s.portSet r.port r.mask).setTime (s.t + high)) :=
    c1.of_eq rfl rfl rfl rfl (Nat.le_add_right s.t high)
  have c3 : TraceOk (((s.portSet r.port r.mask).setTime (s.t + high)).portClr r.port r.mask) := c2.writePort ..
  exact c3.of_eq rfl rfl rfl rfl (Nat.add_le_add_left h s.t)

/-- `adv` reaches the end of the buffer only at the position `(N, 0, 7)`. -/
theorem adv_end {p : Position} {n : Nat} (h : p.ci < n) (h' : (adv p).ci = n) : adv p = ⟨n, 0, 7⟩ := by
  rcases adv_cases p with ⟨_, e⟩ | ⟨_, _, e⟩ | ⟨_, _, e⟩ <;> rw [e] at h' ⊢ <;> simp only at h'
  · omega
  · omega
  · subst h'
    rfl

/-- A pulse is one of the two micro-operations R21 allows in Transmitting. -/
theorem legalPair_emit (b : Bool) : legalPair .transmitting (some (emitOf b)) = true := by cases b <;> rfl

/-- What `sched` chooses is a row of R21 and meets the command's part of the invariant. -/
theorem commandOk_schedule {s : State} {p : Phase} {op : MicroOp} (hs : sched s.buf s.pos = some (p, op))
    (hc : s.cmd = .upload) (hr : s.result = true) (hres : s.Resolved)
    (hpos : s.pos.ci = s.buf.length → s.pos = ⟨s.buf.length, 0, 7⟩)
    (hlow : s.pos ≠ Position.start → s.PinLow) :
    legalPair p (some op) = true ∧ (s.goTo p (some op)).CommandOk := by
  rcases Nat.lt_trichotomy s.pos.ci s.buf.length with h | h | h
  · have bit := sched_bit h
    rw [bit] at hs
    cases hs
    refine ⟨legalPair_emit _, hc, hr, hres, h, .inr ⟨?_, hlow⟩⟩
    show (sched s.buf s.pos).map (·.2) = _
    rw [bit]
    rfl
  · rw [sched_done h] at hs
    cases hs
    refine ⟨rfl, hc, hr, hres, hpos h, fun hb => hlow fun e => hb ?_⟩
    rw [hpos h] at e
    exact List.eq_nil_of_length_eq_zero (congrArg Position.ci e)
  · rw [sched_outside h] at hs
    cases hs

end Sys2Proof.Machine
end

