-- ==== Sys2Proof/Laws/PerInstr.lean ====
section
/-! SUPPORT. Claims made instruction by instruction, one lemma per constructor. -/

/-! ### EncodedLength: an encoding has as many host words as R80 gives the instruction -/
namespace Sys2Proof.Laws.EncodedLength

/-- The host words of an encoding; a micro-operation code is none. -/
def hostWords : Encoding → List Word
  | .host ws => ws
  | .micro _ => []

/-- The encoder writes exactly the words of R80's length. -/
def Statement (i : Instr) : Prop := (hostWords (encode i)).length = i.wordCount

theorem new (pin : PinId) : Statement (.new pin) := rfl
theorem init (pin : PinId) : Statement (.init pin) := rfl
theorem upload (pin : PinId) (cs : List Color) : Statement (.upload pin cs) := by
  simp [Statement, hostWords, encode, Instr.wordCount, Nat.add_comm]
theorem emit0 : Statement .emit0 := rfl
theorem emit1 : Statement .emit1 := rfl
theorem margin : Statement .margin := rfl
theorem latch : Statement .latch := rfl
theorem resolve : Statement .resolve := rfl
theorem dirset : Statement .dirset := rfl
theorem drivelow : Statement .drivelow := rfl
theorem ret : Statement .ret := rfl

end Sys2Proof.Laws.EncodedLength
end

