-- ==== Sys2Proof/Laws/Step.lean ====
section
/-! SUPPORT. Everything a step can do, said once: what it takes to be a step of the block, what it takes to be a step
of the host, and the state each leaves. -/
namespace Sys2Proof.Machine

/-! ### The arms of `exec` -/

theorem exec_new (pin : PinId) (s : State) :
    exec (.new pin) s = s.issue fun s => s.deliver (handleWord pin) := rfl
theorem exec_init (pin : PinId) (s : State) : exec (.init pin) s = s.issue fun s => s.start .init pin [] := rfl
theorem exec_upload (pin : PinId) (cs : List Color) (s : State) :
    exec (.upload pin cs) s = s.issue fun s => s.start .upload pin cs := rfl
theorem exec_emit0 (s : State) : exec .emit0 s = s.withRes (s.pulse s.launch.cfg.t0hCyc) := rfl
theorem exec_emit1 (s : State) : exec .emit1 s = s.withRes (s.pulse s.launch.cfg.t1hCyc) := rfl
theorem exec_margin (s : State) :
    exec .margin s = ((s.takeOvh.takeDelay s.launch.cfg.marginUs).setPos (adv s.pos)).schedule := rfl
theorem exec_latch (s : State) :
    exec .latch s = .next ((s.takeOvh.takeDelay s.launch.cfg.latchUs).goNext .ret) := rfl
theorem exec_resolve (s : State) : exec .resolve s = execResolve s := rfl
theorem exec_dirset (s : State) :
    exec .dirset s = s.withRes fun r => (s.takeOvh.dirSet r.port r.mask).goNext .drivelow := rfl
theorem exec_drivelow (s : State) :
    exec .drivelow s = s.withRes fun r => (s.takeOvh.portClr r.port r.mask).goNext .ret := rfl
theorem exec_ret (s : State) : exec .ret s = .next s.takeOvh.finish := rfl

/-- What RESOLVE schedules, command by command (R121). -/
theorem State.resolved_new {s : State} (h : s.cmd = .new) : s.resolved = .next s := by
  rw [State.resolved, h]

theorem State.resolved_init {s : State} (h : s.cmd = .init) :
    s.resolved = .next (s.goTo .configuring (some .dirset)) := by
  rw [State.resolved, h]

theorem State.resolved_upload {s : State} (h : s.cmd = .upload) :
    s.resolved = (s.setPos Position.start).schedule := by
  rw [State.resolved, h]

theorem exec_resolve_none {s : State} (h : s.launch.cfg.resolve s.id = none) :
    exec .resolve s = .next (s.takeOvh.setRes none).raiseInvalidDeviceIdentifier := by
  rw [exec_resolve, execResolve, h]

theorem exec_resolve_new {s : State} {r : PinRes} (h : s.launch.cfg.resolve s.id = some r) (hc : s.cmd = .new) :
    exec .resolve s = .next ((s.takeOvh.setRes (some r)).setResult true) := by
  rw [exec_resolve, execResolve, h]
  exact State.resolved_new hc

theorem exec_resolve_init {s : State} {r : PinRes} (h : s.launch.cfg.resolve s.id = some r) (hc : s.cmd = .init) :
    exec .resolve s =
      .next (((s.takeOvh.setRes (some r)).setResult true).goTo .configuring (some .dirset)) := by
  rw [exec_resolve, execResolve, h]
  exact State.resolved_init hc

theorem exec_resolve_upload {s : State} {r : PinRes} (h : s.launch.cfg.resolve s.id = some r)
    (hc : s.cmd = .upload) :
    exec .resolve s = (((s.takeOvh.setRes (some r)).setResult true).setPos Position.start).schedule := by
  rw [exec_resolve, execResolve, h]
  exact State.resolved_upload hc

/-! ### The step -/

/-- Only Idle has nothing scheduled (R21, R35). -/
theorem legalPair_none {p : Phase} : legalPair p none = true ↔ p = .idle := by cases p <;> simp [legalPair]

/-- Idle has nothing scheduled (R21, R35). -/
theorem legalPair_idle {n : Option MicroOp} : legalPair .idle n = true ↔ n = none := by
  rcases n with - | op
  · simp [legalPair]
  · cases op <;> simp [legalPair]

/-- If the machine steps, its configuration is good and `phase` and `NEXT` are a row of R21. -/
theorem step_next_legal {s s' : State} (h : step s = .next s') :
    s.launch.cfg.ok = true ∧ legalPair s.phase s.next = true := by
  unfold step machineStep at h
  split at h
  · split at h
    · exact ⟨‹_›, ‹_›⟩
    · cases h
  · cases h

/-- A step of a busy block is its scheduled micro-operation. -/
theorem step_micro {s : State} {op : MicroOp} (hc : s.launch.cfg.ok = true)
    (hp : legalPair s.phase s.next = true) (hn : s.next = some op) : step s = exec op.toInstr s := by
  rw [step, machineStep, if_pos hc, if_pos hp]
  simp only [hn]

/-- A step of an Idle block is the host's. -/
theorem step_host {s : State} (hc : s.launch.cfg.ok = true) (hp : s.phase = .idle) (hn : s.next = none) :
    step s = hostStep s := by
  rw [step, machineStep, if_pos hc, if_pos (by rw [hp, hn]; rfl)]
  simp only [hn]

/-- Everything `decode` can answer as a command: one of the three host commands. -/
theorem decode_command {ws rest : List Word} {i : Instr} (h : decode ws = .command i rest) :
    (∃ pin, i = .new pin) ∨ (∃ pin, i = .init pin) ∨ ∃ pin cs, i = .upload pin cs := by
  cases ws with
  | nil => cases h
  | cons w ws =>
    simp only [decode, decodeUpload] at h
    split at h
    · split at h <;> cases h
      exact .inl ⟨_, rfl⟩
    · split at h
      · split at h <;> cases h
        exact .inr (.inl ⟨_, rfl⟩)
      · split at h
        · split at h
          · cases h
          · split at h <;> cases h
            exact .inr (.inr ⟨_, _, rfl⟩)
        · cases h

/-- What a step of the host can do when it answers a next state. -/
inductive HostMove (s s' : State) : Prop where
  | waits (h : s.input = []) (e : s' = s)
  | passes (d : Nat) (l : List HostItem) (h : s.input = .wait d :: l) (e : s' = (s.setInput l).tick d)
  | writes (r : GpioReg) (a : Nat) (v : Byte) (l : List HostItem) (h : s.input = .write r a v :: l)
      (e : s' = (s.setInput l).hostWrite r a v)
  | news (pin : PinId) (rest : List Word) (hd : decode (leadingWords s.input) = .command (.new pin) rest)
      (hn : s.launch.nonPreemptive = true)
      (e : s' = (s.setInput (s.input.drop 1)).deliver (handleWord pin))
  | inits (pin : PinId) (rest : List Word) (hd : decode (leadingWords s.input) = .command (.init pin) rest)
      (hn : s.launch.nonPreemptive = true)
      (e : s' = (s.setInput (s.input.drop 1)).start .init pin [])
  | uploads (pin : PinId) (cs : List Color) (rest : List Word)
      (hd : decode (leadingWords s.input) = .command (.upload pin cs) rest)
      (hn : s.launch.nonPreemptive = true)
      (e : s' = (s.setInput (s.input.drop (1 + cs.length))).start .upload pin cs)

theorem hostStep_next {s s' : State} (h : hostStep s = .next s') : HostMove s s' := by
  unfold hostStep at h
  split at h
  · cases h
    exact .waits ‹_› rfl
  · cases h
    exact .passes _ _ ‹_› rfl
  · cases h
    exact .writes _ _ _ _ ‹_› rfl
  · rename_i w l hi
    have lead : leadingWords s.input = w :: leadingWords l := by rw [hi, leadingWords]
    rw [← lead] at h
    split at h
    · rename_i i rest hd
      rcases decode_command hd with ⟨pin, rfl⟩ | ⟨pin, rfl⟩ | ⟨pin, cs, rfl⟩
      · rw [exec_new] at h
        obtain ⟨-, hn, e⟩ := State.issue_next h
        exact .news pin rest hd hn e
      · rw [exec_init] at h
        obtain ⟨-, hn, e⟩ := State.issue_next h
        exact .inits pin rest hd hn e
      · rw [exec_upload] at h
        obtain ⟨-, hn, e⟩ := State.issue_next h
        exact .uploads pin cs rest hd hn e
    · cases h
    · cases h

/-- What a micro-operation can do when it answers a next state. -/
inductive MicroMove (s s' : State) : MicroOp → Prop where
  | emit0 (r : PinRes) (h : s.res = some r) (e : s' = s.pulse s.launch.cfg.t0hCyc r) : MicroMove s s' .emit0
  | emit1 (r : PinRes) (h : s.res = some r) (e : s' = s.pulse s.launch.cfg.t1hCyc r) : MicroMove s s' .emit1
  | margin (p : Phase) (op : MicroOp) (h : sched s.buf (adv s.pos) = some (p, op))
      (e : s' = ((s.takeOvh.takeDelay s.launch.cfg.marginUs).setPos (adv s.pos)).goTo p (some op)) :
      MicroMove s s' .margin
  | latch (e : s' = (s.takeOvh.takeDelay s.launch.cfg.latchUs).goNext .ret) : MicroMove s s' .latch
  | fails (h : s.launch.cfg.resolve s.id = none) (e : s' = (s.takeOvh.setRes none).raiseInvalidDeviceIdentifier) :
      MicroMove s s' .resolve
  | resolvesNew (r : PinRes) (h : s.launch.cfg.resolve s.id = some r) (hc : s.cmd = .new)
      (e : s' = (s.takeOvh.setRes (some r)).setResult true) : MicroMove s s' .resolve
  | resolvesInit (r : PinRes) (h : s.launch.cfg.resolve s.id = some r) (hc : s.cmd = .init)
      (e : s' = ((s.takeOvh.setRes (some r)).setResult true).goTo .configuring (some .dirset)) :
      MicroMove s s' .resolve
  | resolvesUpload (r : PinRes) (h : s.launch.cfg.resolve s.id = some r) (hc : s.cmd = .upload) (p : Phase)
      (op : MicroOp) (hs : sched s.buf Position.start = some (p, op))
      (e : s' = (((s.takeOvh.setRes (some r)).setResult true).setPos Position.start).goTo p (some op)) :
      MicroMove s s' .resolve
  | dirset (r : PinRes) (h : s.res = some r) (e : s' = (s.takeOvh.dirSet r.port r.mask).goNext .drivelow) :
      MicroMove s s' .dirset
  | drivelow (r : PinRes) (h : s.res = some r) (e : s' = (s.takeOvh.portClr r.port r.mask).goNext .ret) :
      MicroMove s s' .drivelow
  | ret (e : s' = s.takeOvh.finish) : MicroMove s s' .ret

theorem exec_micro_next {s s' : State} {op : MicroOp} (h : exec op.toInstr s = .next s') : MicroMove s s' op := by
  cases op with
  | emit0 =>
    rw [MicroOp.toInstr, exec_emit0] at h
    obtain ⟨r, hr, e⟩ := State.withRes_next h
    exact .emit0 r hr e
  | emit1 =>
    rw [MicroOp.toInstr, exec_emit1] at h
    obtain ⟨r, hr, e⟩ := State.withRes_next h
    exact .emit1 r hr e
  | margin =>
    rw [MicroOp.toInstr, exec_margin] at h
    obtain ⟨p, op, hs, e⟩ := State.schedule_next h
    exact .margin p op hs e
  | latch =>
    rw [MicroOp.toInstr, exec_latch] at h
    cases h
    exact .latch rfl
  | resolve =>
    rw [MicroOp.toInstr] at h
    cases hr : s.launch.cfg.resolve s.id with
    | none =>
      rw [exec_resolve_none hr] at h
      cases h
      exact .fails hr rfl
    | some r =>
      cases hc : s.cmd with
      | new =>
        rw [exec_resolve_new hr hc] at h
        cases h
        exact .resolvesNew r hr hc rfl
      | init =>
        rw [exec_resolve_init hr hc] at h
        cases h
        exact .resolvesInit r hr hc rfl
      | upload =>
        rw [exec_resolve_upload hr hc] at h
        obtain ⟨p, op, hs, e⟩ := State.schedule_next h
        exact .resolvesUpload r hr hc p op hs e
  | dirset =>
    rw [MicroOp.toInstr, exec_dirset] at h
    obtain ⟨r, hr, e⟩ := State.withRes_next h
    exact .dirset r hr e
  | drivelow =>
    rw [MicroOp.toInstr, exec_drivelow] at h
    obtain ⟨r, hr, e⟩ := State.withRes_next h
    exact .drivelow r hr e
  | ret =>
    rw [MicroOp.toInstr, exec_ret] at h
    cases h
    exact .ret rfl

/-- Everything a step can do when it answers a next state. -/
theorem step_next_cases {s s' : State} (h : step s = .next s') :
    (s.phase = .idle ∧ s.next = none ∧ HostMove s s') ∨
      (s.phase ≠ .idle ∧ ∃ op, s.next = some op ∧ MicroMove s s' op) := by
  obtain ⟨hc, hp⟩ := step_next_legal h
  cases hn : s.next with
  | none =>
    have idle := legalPair_none.1 (hn ▸ hp)
    rw [step_host hc idle hn] at h
    exact .inl ⟨idle, rfl, hostStep_next h⟩
  | some op =>
    rw [step_micro hc hp hn] at h
    refine .inr ⟨fun idle => ?_, op, rfl, exec_micro_next h⟩
    rw [idle, hn, legalPair_idle] at hp
    cases hp

end Sys2Proof.Machine
end

