-- ==== Sys2Proof/Laws/Run.lean ====
section
/-! SUPPORT. Runs of several steps. -/
namespace Sys2Proof.Machine

theorem run_zero (s : State) : run 0 s = .next s := rfl

theorem run_succ (k : Nat) (s : State) :
    run (k + 1) s =
      match step s with
      | .next s' => run k s'
      | .fault f => .fault f
      | .refused r => .refused r := rfl

/-- A run begins with a step. -/
theorem run_of_step {k : Nat} {s s' : State} (h : step s = .next s') : run (k + 1) s = run k s' := by
  rw [run_succ, h]

/-- Runs compose. -/
theorem run_add {j k : Nat} {s s' : State} (h : run j s = .next s') : run (j + k) s = run k s' := by
  induction j generalizing s with
  | zero =>
    cases h
    rw [Nat.zero_add]
  | succ j ih =>
    rw [Nat.succ_add, run_succ]
    rw [run_succ] at h
    cases hs : step s with
    | next t =>
      rw [hs] at h
      exact ih h
    | fault f =>
      rw [hs] at h
      cases h
    | refused r =>
      rw [hs] at h
      cases h

/-- The host's run, by the outcome of its first step. -/
theorem host_run_next {M : Host.Core} {k : Nat} {s t : M.State} (h : M.step s = .next t) :
    M.run (k + 1) s = M.run k t := by
  rw [Host.Core.run, h]

theorem host_run_fault {M : Host.Core} {k : Nat} {s : M.State} {f : M.Fault} (h : M.step s = .fault f) :
    M.run (k + 1) s = .fault f := by
  rw [Host.Core.run, h]

theorem host_run_refused {M : Host.Core} {k : Nat} {s : M.State} {r : M.Refusal} (h : M.step s = .refused r) :
    M.run (k + 1) s = .refused r := by
  rw [Host.Core.run, h]

/-- `run` is the host's own run of this machine. -/
theorem core_run (k : Nat) (s : State) : Sys2Proof.core.run k s = run k s := by
  induction k generalizing s with
  | zero => rfl
  | succ k ih =>
    rw [run]
    cases hs : step s with
    | next t => exact (host_run_next (M := Sys2Proof.core) hs).trans (ih t)
    | fault f => exact host_run_fault (M := Sys2Proof.core) hs
    | refused r => exact host_run_refused (M := Sys2Proof.core) hs

/-! ### The steps of a busy block, one lemma a micro-operation: the state each leaves -/

theorem step_emit {s : State} {r : PinRes} {b : Bool} (hc : s.launch.cfg.ok = true) (hp : s.phase = .transmitting)
    (hn : s.next = some (emitOf b)) (hr : s.res = some r) :
    step s = .next (s.pulse (if b then s.launch.cfg.t1hCyc else s.launch.cfg.t0hCyc) r) := by
  rw [step_micro hc (by rw [hp, hn]; cases b <;> rfl) hn]
  cases b
  · exact (exec_emit0 s).trans (State.withRes_some _ hr)
  · exact (exec_emit1 s).trans (State.withRes_some _ hr)

theorem step_margin {s : State} {p : Phase} {op : MicroOp} (hc : s.launch.cfg.ok = true)
    (hp : s.phase = .transmitting) (hn : s.next = some .margin) (hs : sched s.buf (adv s.pos) = some (p, op)) :
    step s = .next (((s.takeOvh.takeDelay s.launch.cfg.marginUs).setPos (adv s.pos)).goTo p (some op)) := by
  rw [step_micro hc (by rw [hp, hn]; rfl) hn]
  exact (exec_margin s).trans (State.schedule_some hs)

theorem step_latch {s : State} (hc : s.launch.cfg.ok = true) (hp : s.phase = .latching)
    (hn : s.next = some .latch) :
    step s = .next ((s.takeOvh.takeDelay s.launch.cfg.latchUs).goNext .ret) := by
  rw [step_micro hc (by rw [hp, hn]; rfl) hn]
  exact exec_latch s

theorem step_ret {s : State} (hc : s.launch.cfg.ok = true) (hp : legalPair s.phase (some .ret) = true)
    (hn : s.next = some .ret) : step s = .next s.takeOvh.finish := by
  rw [step_micro hc (by rw [hn]; exact hp) hn]
  exact exec_ret s

theorem step_resolve {s : State} (hc : s.launch.cfg.ok = true) (hp : s.phase = .resolving)
    (hn : s.next = some .resolve) : step s = exec .resolve s :=
  step_micro hc (by rw [hp, hn]; rfl) hn

theorem step_dirset {s : State} {r : PinRes} (hc : s.launch.cfg.ok = true) (hp : s.phase = .configuring)
    (hn : s.next = some .dirset) (hr : s.res = some r) :
    step s = .next ((s.takeOvh.dirSet r.port r.mask).goNext .drivelow) := by
  rw [step_micro hc (by rw [hp, hn]; rfl) hn]
  exact (exec_dirset s).trans (State.withRes_some _ hr)

theorem step_drivelow {s : State} {r : PinRes} (hc : s.launch.cfg.ok = true) (hp : s.phase = .configuring)
    (hn : s.next = some .drivelow) (hr : s.res = some r) :
    step s = .next ((s.takeOvh.portClr r.port r.mask).goNext .ret) := by
  rw [step_micro hc (by rw [hp, hn]; rfl) hn]
  exact (exec_drivelow s).trans (State.withRes_some _ hr)

end Sys2Proof.Machine
end

