-- ==== Sys2Proof/Tests/Slice0.lean ====
section
/-! SUPPORT. The model's own tests: decoding of words written out from the spec, single steps with the results of
95_test_vectors.md, and one witness for the hypotheses of every statement. -/
namespace Sys2Proof.Tests
open Sys2Proof Sys2Proof.Machine Sys2Proof.Claims

/-! ### Helpers -/

/-- What a test looks at in the state an outcome leads to. -/
def seen {α : Type} (o : Host.Outcome State Fault Refusal) (f : State → α) : Option α :=
  match o with
  | .next s => some (f s)
  | .fault _ => none
  | .refused _ => none

/-- The resource `(PA, 0x04)` of EX. -/
def pin2 : PinRes := ⟨0, 0x04⟩

/-- EX busy with micro-operation `op` at cycle `t`, resource `r`, the registers of port PA at `p` and `d`. -/
def busy (ph : Phase) (op : MicroOp) (t : Nat) (r : Option PinRes) (p d : Byte) : State :=
  { State.reset with
    phase := ph, next := some op, t := t, res := r
    port := Memory.write [] 0 p, dir := Memory.write [] 0 d
    launch := { exampleLaunch with port := Memory.write [] 0 p, dir := Memory.write [] 0 d } }

/-- What EMIT, DIRSET and DRIVELOW are seen to do: events, cycle, `NEXT`, phase. -/
def doings (s : State) : List Event × Nat × Option MicroOp × Phase := (s.trace, s.t, s.next, s.phase)

/-! ### Well-formedness (R75, D24): the one check, and an ill-formed term it refuses -/

theorem test_wf_longest : (Instr.upload 2 (List.replicate 65535 ⟨0, 0, 0⟩)).wf = true := by
  rw [Instr.wf, List.length_replicate]
  rfl

theorem test_wf_refuses_longer : (Instr.upload 2 (List.replicate 65536 ⟨0, 0, 0⟩)).wf = false := by
  rw [Instr.wf, List.length_replicate]
  rfl

/-! ### Decoding: words of table V1 of 95_test_vectors.md, codes of R78 -/

theorem test_decode_new : decode [0x01FF0000] = .command (.new 255) [] := by decide

theorem test_decode_init : decode [0x02020000] = .command (.init 2) [] := by decide

theorem test_decode_upload :
    decode [0x03030002, 0x00000000, 0x00FFFFFF] = .command (.upload 3 [⟨0, 0, 0⟩, ⟨255, 255, 255⟩]) [] := by decide

/-- The fields of format H and format C at different values, so that no two can be confused (R73, R76). -/
theorem test_decode_fields :
    decode [0b00000011_10000001_0000000000000001, 0b00000000_00010010_00110100_01010110, 0x02070000] =
      .command (.upload 0x81 [⟨0x12, 0x34, 0x56⟩]) [0x02070000] := by decide

theorem test_decode_reserved_opcode :
    decode [0x00020000] = .reserved .opcode ∧ decode [0xFF000000] = .reserved .opcode := by decide

theorem test_decode_reserved_count :
    decode [0x01020001] = .reserved .count ∧ decode [0x02028000] = .reserved .count := by decide

theorem test_decode_reserved_colour :
    decode [0x03020001, 0x80000000] = .reserved .colour := by decide

theorem test_decode_incomplete : decode [0x03020002, 0x00000000] = .incomplete := by decide

theorem test_decode_emit0 : (decodeMicro 0b000).toInstr = .emit0 := by decide
theorem test_decode_emit1 : (decodeMicro 0b001).toInstr = .emit1 := by decide
theorem test_decode_margin : (decodeMicro 0b010).toInstr = .margin := by decide
theorem test_decode_latch : (decodeMicro 0b011).toInstr = .latch := by decide
theorem test_decode_resolve : (decodeMicro 0b100).toInstr = .resolve := by decide
theorem test_decode_dirset : (decodeMicro 0b101).toInstr = .dirset := by decide
theorem test_decode_drivelow : (decodeMicro 0b110).toInstr = .drivelow := by decide
theorem test_decode_return : (decodeMicro 0b111).toInstr = .ret := by decide

theorem test_encode_upload :
    encode (.upload 2 [⟨255, 128, 1⟩]) = .host [0x03020001, 0x00FF8001] := by decide

/-- The commands of program P1 of 95_test_vectors.md, line by line. -/
theorem test_assemble_p1 :
    assemble [.init 2, .upload 2 1, .color 0 0 0] = some [0x02020000, 0x03020001, 0x00000000] := by decide

theorem test_assemble_refuses :
    assemble [.color 0 0 0] = none ∧ assemble [.upload 2 1] = none ∧ assemble [.new 256] = none := by decide

/-- R81's own layout: blanks, a comma, hexadecimal, a comment. -/
theorem test_assemble_text :
    assembleText (['u', 'p', 'l', 'o', 'a', 'd', ' ', '0', 'x', '0', '2', ',', ' ', '1', ' ', ';', 'x', '\n'] ++
      ['.', 'c', 'o', 'l', 'o', 'r', ' ', '2', '5', '5', ',', '1', '2', '8', ',', '1']) =
      some [0x03020001, 0x00FF8001] := by decide

/-! ### Fetch: the table's words run as the next step -/

theorem test_fetch_new :
    seen (step (State.reset.withFetchWord 32 0x01070000)) (fun s => s.results) = some [⟨0, 0x00000007⟩] := by decide

theorem test_fetch_upload :
    seen (step (State.reset.withFetchWord 32 0x03020002)) (fun s => (s.cmd, s.id, s.buf, s.input)) =
      some (.upload, 2, [⟨0, 0, 0⟩, ⟨0, 0, 0⟩], []) := by decide

/-! ### NEW, INIT, UPLOAD -/

/-- V7: NEW 7 at 50. -/
theorem test_new_at_50 :
    exec (.new 7) { State.reset with t := 50 } =
      .next { State.reset with t := 50, results := [⟨50, 0x00000007⟩] } := rfl

/-- R126: INIT latches an empty buffer. -/
theorem test_init_issue :
    exec (.init 2) { State.reset with buf := [⟨1, 2, 3⟩], id := 9 } =
      .next { State.reset with cmd := .init, id := 2, buf := [], phase := .resolving, next := some .resolve } := rfl

/-- R126: UPLOAD latches the colours as sent. -/
theorem test_upload_issue :
    exec (.upload 2 [⟨255, 128, 1⟩]) State.reset =
      .next { State.reset with
        cmd := .upload, id := 2, buf := [⟨255, 128, 1⟩], phase := .resolving, next := some .resolve } := rfl

/-! ### Pulses: table V5 -/

theorem test_emit0_from_low :
    seen (exec .emit0 (busy .transmitting .emit0 4 (some pin2) 0x00 0x00)) doings =
      some ([⟨4, .block, .port, 0, 0x04⟩, ⟨10, .block, .port, 0, 0x00⟩], 24, some .margin, .transmitting) := by decide

theorem test_emit0_no_resource :
    exec .emit0 (busy .transmitting .emit0 4 none 0x00 0x00) = .fault .invalidResource := rfl

theorem test_emit1_other_bits :
    seen (exec .emit1 (busy .transmitting .emit1 4 (some pin2) 0xA1 0x00)) doings =
      some ([⟨4, .block, .port, 0, 0xA5⟩, ⟨17, .block, .port, 0, 0xA1⟩], 24, some .margin, .transmitting) := by decide

theorem test_emit1_top_bit :
    seen (exec .emit1 (busy .transmitting .emit1 100 (some ⟨0, 0x80⟩) 0x7F 0x00)) doings =
      some ([⟨100, .block, .port, 0, 0xFF⟩, ⟨113, .block, .port, 0, 0x7F⟩], 120, some .margin, .transmitting) := by
  decide

/-! ### MARGIN and LATCH: table V6 -/

/-- A MARGIN of one frame of one colour. -/
def marginOf (t : Nat) (p : Position) : State :=
  { busy .transmitting .margin t (some pin2) 0 0 with cmd := .upload, buf := [⟨255, 128, 1⟩], pos := p }

theorem test_margin_next_bit :
    seen (exec .margin (marginOf 24 ⟨0, 0, 7⟩)) (fun s => (s.t, s.pos, s.phase, s.next)) =
      some (44, ⟨0, 0, 6⟩, .transmitting, some .emit0) := by decide

theorem test_margin_last_bit :
    seen (exec .margin (marginOf 944 ⟨0, 2, 0⟩)) (fun s => (s.t, s.pos, s.phase, s.next)) =
      some (964, ⟨1, 0, 7⟩, .latching, some .latch) := by decide

theorem test_latch :
    seen (exec .latch (busy .latching .latch 964 (some pin2) 0 0)) doings =
      some ([], 1768, some .ret, .latching) := by decide

/-- R9 and V6: the conversion rounds up. -/
theorem test_us_to_cyc :
    exampleConfig.usToCyc 50 = 800 ∧ { exampleConfig with fCpuHz := 8000000 }.usToCyc 50 = 400 ∧
      { exampleConfig with fCpuHz := 1500000 }.usToCyc 50 = 75 ∧
      { exampleConfig with fCpuHz := 1500000 }.usToCyc 1 = 2 := by decide

/-! ### RESOLVE, DIRSET, DRIVELOW, RETURN: table V7 -/

/-- A RESOLVE at cycle 0. -/
def resolving (c : Command) (id : PinId) (cs : List Color) : State :=
  { busy .resolving .resolve 0 none 0 0 with cmd := c, id := id, buf := cs }

theorem test_resolve_success :
    seen (exec .resolve (resolving .init 2 [])) (fun s => (s.t, s.res, s.result, s.phase, s.next)) =
        some (4, some pin2, true, .configuring, some .dirset) ∧
      seen (exec .resolve (resolving .upload 2 [⟨255, 0, 1⟩])) (fun s => (s.t, s.result, s.pos, s.phase, s.next)) =
        some (4, true, ⟨0, 0, 7⟩, .transmitting, some .emit0) ∧
      seen (exec .resolve (resolving .upload 2 [])) (fun s => (s.phase, s.next)) =
        some (.latching, some .latch) := ⟨by decide, by decide, by decide⟩

theorem test_resolve_failure :
    seen (exec .resolve (resolving .init 7 [])) (fun s => (s.t, s.res, s.result, s.phase, s.next)) =
      some (4, none, false, .failed, some .ret) := by decide

theorem test_dirset_keeps_other_bits :
    seen (exec .dirset (busy .configuring .dirset 4 (some pin2) 0 0x10)) doings =
      some ([⟨8, .block, .dir, 0, 0x14⟩], 8, some .drivelow, .configuring) := by decide

theorem test_dirset_records_no_change :
    seen (exec .dirset (busy .configuring .dirset 4 (some pin2) 0 0x04)) (fun s => s.trace) =
      some [⟨8, .block, .dir, 0, 0x04⟩] := by decide

theorem test_drivelow_keeps_other_bits :
    seen (exec .drivelow (busy .configuring .drivelow 8 (some pin2) 0x0C 0x04)) doings =
      some ([⟨12, .block, .port, 0, 0x08⟩], 12, some .ret, .configuring) := by decide

theorem test_return_success :
    seen (exec .ret { busy .configuring .ret 12 (some pin2) 0 0x04 with result := true })
      (fun s => (s.results, s.t, s.res, s.phase, s.next)) =
        some ([⟨16, 0x00000001⟩], 16, none, .idle, none) := by decide

theorem test_return_failure :
    seen (exec .ret (busy .failed .ret 4 none 0 0)) (fun s => (s.results, s.phase)) =
      some ([⟨8, 0x00000000⟩], .idle) := by decide

/-! ### Wire order (V3, V4) and the line (E6) -/

theorem test_wire_bits :
    wireBits [⟨0x12, 0x34, 0x56⟩] =
      [false, false, true, true, false, true, false, false, false, false, false, true, false, false, true, false,
       false, true, false, true, false, true, true, false] := by decide

theorem test_adv :
    adv ⟨0, 0, 7⟩ = ⟨0, 0, 6⟩ ∧ adv ⟨0, 0, 0⟩ = ⟨0, 1, 7⟩ ∧ adv ⟨0, 2, 0⟩ = ⟨1, 0, 7⟩ := by decide

/-- E6: INIT on a pin whose port bit was 1 leaves these two events; the line is High from 8 to 12. -/
def glitch : State :=
  { State.reset with
    trace := [⟨8, .block, .dir, 0, 0x04⟩, ⟨12, .block, .port, 0, 0x00⟩]
    dir := [(0, 0x04)]
    launch := { exampleLaunch with port := [(0, 0x04)] } }

theorem test_line_glitch :
    [7, 8, 11, 12].map (glitch.line 0 0x04) = [.undriven, .high, .high, .low] ∧
      glitch.pulses 0 0x04 0 20 = [4] := by decide

/-- V5 and E9: high times 6 and 13, one cycle apart from the tolerance that would make them alike. -/
theorem test_classify :
    [6, 13, 9, 10, 20].map (classify exampleConfig 3) = [some false, some true, some false, some true, none] := by
  decide

/-! ### Witnesses: for every statement with hypotheses, states and operands that meet them together -/

/-- A state that has done nothing yet meets the invariant when its current command does. -/
theorem inv_of_quiet {s : State} (c : s.launch.cfg.ok = true) (p : legalPair s.phase s.next = true)
    (wp : Memory.wf s.port) (wd : Memory.wf s.dir) (lp : s.launch.port = s.port) (ld : s.launch.dir = s.dir)
    (tr : s.trace = []) (n : s.launch.nonPreemptive = true) (k : s.CommandOk) : s.Inv where
  cfgOk := c
  pair := p
  portWf := wp
  dirWf := wd
  launchPortWf := lp ▸ wp
  launchDirWf := ld ▸ wd
  portTraced := by rw [tr, lp]; rfl
  dirTraced := by rw [tr, ld]; rfl
  traceOrdered := by rw [tr]; exact List.Pairwise.nil
  tracePast := by rw [tr]; intro e he; cases he
  premise := fun _ => n
  command := k

/-- Idle under EX, the registers of PA at `p` and `d`. -/
def idle (p d : Byte) : State :=
  { State.reset with
    port := Memory.write [] 0 p, dir := Memory.write [] 0 d
    launch := { exampleLaunch with port := Memory.write [] 0 p, dir := Memory.write [] 0 d } }

/-- UPLOAD of one colour, busy with `op` at position `p`. -/
def sending (op : MicroOp) (p : Position) : State :=
  { busy .transmitting op 24 (some pin2) 0 0x04 with
    cmd := .upload, id := 2, result := true, buf := [⟨255, 128, 1⟩], pos := p }

/-- INIT of pin 2, busy with `op`, the direction at `d`. -/
def configuring (op : MicroOp) (d : Byte) : State :=
  { busy .configuring op 4 (some pin2) 0 d with cmd := .init, id := 2, result := true }

/-- UPLOAD of one colour, in its latch. -/
def latching (op : MicroOp) : State :=
  { busy .latching op 964 (some pin2) 0 0x04 with
    cmd := .upload, id := 2, result := true, buf := [⟨255, 128, 1⟩], pos := ⟨1, 0, 7⟩ }

/-- INIT of the identifier 7, which names no pin, after RESOLVE. -/
def failed : State := { busy .failed .ret 4 none 0 0 with cmd := .init, id := 7, result := false }

/-- The configuration EX with `T1H_CYC = BIT_CYC`, just outside R8. -/
def badConfig : State :=
  { State.reset with launch := { exampleLaunch with cfg := { exampleConfig with t1hCyc := 20 } } }

/-- A run whose launch does not state the premise. -/
def unpremised : State := { State.reset with launch := { exampleLaunch with nonPreemptive := false } }

theorem idle_inv (p d : Byte) : (idle p d).Inv :=
  inv_of_quiet rfl rfl (Memory.write_wf _ _ (by decide)) (Memory.write_wf _ _ (by decide)) rfl rfl rfl rfl rfl

theorem resolving_inv : (resolving .upload 2 [⟨255, 128, 1⟩]).Inv :=
  inv_of_quiet rfl rfl (by decide) (by decide) rfl rfl rfl rfl ⟨rfl, by decide, by decide⟩

theorem failed_inv : failed.Inv :=
  inv_of_quiet rfl rfl (by decide) (by decide) rfl rfl rfl rfl ⟨rfl, by decide, rfl, by decide⟩

theorem dirset_inv : (configuring .dirset 0x10).Inv :=
  inv_of_quiet rfl rfl (by decide) (by decide) rfl rfl rfl rfl ⟨rfl, rfl, by decide, by decide⟩

theorem init_return_inv : (configuring .ret 0x04).Inv :=
  inv_of_quiet rfl rfl (by decide) (by decide) rfl rfl rfl rfl ⟨rfl, rfl, by decide, by decide⟩

theorem first_pulse_inv : (sending .emit1 ⟨0, 0, 7⟩).Inv :=
  inv_of_quiet rfl rfl (by decide) (by decide) rfl rfl rfl rfl ⟨rfl, rfl, by decide, by decide⟩

theorem last_margin_inv : (sending .margin ⟨0, 2, 0⟩).Inv :=
  inv_of_quiet rfl rfl (by decide) (by decide) rfl rfl rfl rfl ⟨rfl, rfl, by decide, by decide⟩

theorem latching_inv : (latching .latch).Inv :=
  inv_of_quiet rfl rfl (by decide) (by decide) rfl rfl rfl rfl ⟨rfl, rfl, by decide, by decide, by decide⟩

theorem witness_LaunchLeavesIdleMachine : exampleLaunch.cfg.ok = true := by decide

theorem witness_DecodeOfEncodeIsInstruction :
    (Instr.upload 2 [⟨255, 128, 1⟩]).wf = true ∧
      encode (.upload 2 [⟨255, 128, 1⟩]) = .host [0x03020001, 0x00FF8001] ∧
      Instr.ret.wf = true ∧ encode .ret = .micro 0b111 := by decide

theorem witness_EncodeOfDecodeIsWords :
    decode [0x03020001, 0x00FF8001, 0x01070000] = .command (.upload 2 [⟨255, 128, 1⟩]) [0x01070000] := by decide

/-- R79's clauses, each at the first or last value of its range; the last is where two rejections meet. -/
theorem witness_DecoderVerdicts_clauses :
    (let opc := (0x00020000#32).extractLsb' 24 8
     opc ≠ 1 ∧ opc ≠ 2 ∧ opc ≠ 3) ∧
    (let opc := (0x04020000#32).extractLsb' 24 8
     opc ≠ 1 ∧ opc ≠ 2 ∧ opc ≠ 3) ∧
    ((0x01020001#32).extractLsb' 24 8 = 1 ∧ ((0x01020001#32).extractLsb' 0 16).toNat ≠ 0) ∧
    ((0x0202FFFF#32).extractLsb' 24 8 = 2 ∧ ((0x0202FFFF#32).extractLsb' 0 16).toNat ≠ 0) ∧
    ((0x03020001#32).extractLsb' 24 8 = 3 ∧ ((0x03020001#32).extractLsb' 0 16).toNat = 1 ∧
      (0x01FF8001#32).extractLsb' 24 8 ≠ 0#8 ∧ (0x00FF8001#32).extractLsb' 24 8 = 0#8) ∧
    ((0x03020002#32).extractLsb' 24 8 = 3 ∧ ((0x03020002#32).extractLsb' 0 16).toNat = 2) ∧
    ((0x03020000#32).extractLsb' 24 8 = 3 ∧ ((0x03020000#32).extractLsb' 0 16).toNat = 0) ∧
    ((0x01FF0000#32).extractLsb' 24 8 = 1 ∧ ((0x01FF0000#32).extractLsb' 0 16).toNat = 0) ∧
    ((0x02000000#32).extractLsb' 24 8 = 2 ∧ ((0x02000000#32).extractLsb' 0 16).toNat = 0) := by decide

/-- Where a reserved colour word is there and another word is missing, both rejections of R79 apply. -/
theorem witness_DecoderVerdicts_both :
    ([0x01FF8001] : List Word).length < ((0x03020002#32).extractLsb' 0 16).toNat ∧
      ∃ u ∈ ([0x01FF8001] : List Word).take 2, u.extractLsb' 24 8 ≠ 0#8 :=
  ⟨by decide, 0x01FF8001, by decide, by decide⟩

theorem witness_DecoderVerdicts_step :
    let s : State := { State.reset with input := [.word 0x03020002, .word 0x00000000] }
    s.launch.cfg.ok = true ∧ s.phase = .idle ∧ s.next = none ∧
      s.input = ([0x03020002, 0x00000000] : List Word).map HostItem.word ∧
      decode [0x03020002, 0x00000000] = .incomplete ∧ decode [0x04020000] = .reserved .opcode := by decide

theorem witness_AssemblerAcceptsCommands :
    isCommand (.upload 2 [⟨0, 0, 0⟩]) ∧ (Instr.upload 2 [⟨0, 0, 0⟩]).wf = true ∧
      asmLines (.upload 2 [⟨0, 0, 0⟩]) = [.upload 2 1, .color 0 0 0] :=
  ⟨.inr (.inr ⟨_, _, rfl⟩), rfl, rfl⟩

theorem witness_StepRunsDecodedCommand :
    let s : State := { State.reset with input := [.word 0x02020000, .wait 5] }
    s.launch.cfg.ok = true ∧ s.phase = .idle ∧ s.next = none ∧
      decode (leadingWords s.input) = .command (.init 2) [] := by decide

theorem witness_StepRunsScheduledMicroOp :
    let s := sending .margin ⟨0, 2, 0⟩
    s.launch.cfg.ok = true ∧ legalPair s.phase s.next = true ∧ s.next = some .margin := by decide

theorem witness_HostMovesWhileIdle :
    let s (h : HostItem) : State := { State.reset with input := [h] }
    (s (.wait 0)).launch.cfg.ok = true ∧ (s (.wait 0)).phase = .idle ∧ (s (.wait 0)).next = none ∧
      (s (.wait 0)).input = [.wait 0] ∧
      (s (.write .port 0 0xFF)).input = [.write .port 0 0xFF] ∧ Memory.wf (s (.write .port 0 0xFF)).port ∧
      (s (.write .dir 3 0)).input = [.write .dir 3 0] ∧ Memory.wf (s (.write .dir 3 0)).dir := by decide

theorem witness_StepStopsOutsideTheRules :
    badConfig.launch.cfg.ok = false ∧
      (let s : State := { State.reset with phase := .failed }
       s.launch.cfg.ok = true ∧ legalPair s.phase s.next = false) := by decide

/-- Also of `CommandIssueLatchesOperands`. -/
theorem witness_NewDeliversHandle : MayIssue State.reset := by decide

theorem witness_CommandsNeedIdleAndPremise :
    isCommand (.new 7) ∧ failed.phase ≠ .idle ∧ unpremised.phase = .idle ∧
      unpremised.launch.nonPreemptive = false :=
  ⟨.inl ⟨_, rfl⟩, by decide, rfl, rfl⟩

/-- Also of `Emit1Pulse` and `PulsePeriodSymmetry`. -/
theorem witness_Emit0Pulse :
    let s := sending .emit0 ⟨0, 0, 6⟩
    s.res = some pin2 ∧ Memory.wf s.port ∧ failed.res = none := by decide

theorem witness_PulseFrame :
    let s := sending .emit1 ⟨0, 0, 7⟩
    Memory.wf s.port ∧ ∃ s', exec .emit1 s = .next s' := ⟨by decide, _, rfl⟩

theorem witness_MarginAdvances :
    let s := sending .margin ⟨0, 2, 0⟩
    s.launch.cfg.ok = true ∧ (adv s.pos).ci = s.buf.length := by decide

theorem witness_MarginPastBufferFaults :
    let s := sending .margin ⟨1, 2, 0⟩
    s.buf.length < (adv s.pos).ci := by decide

/-- Also of `ReturnDeliversResult`. -/
theorem witness_LatchWaits : (latching .latch).launch.cfg.ok = true := by decide

/-- The last position inside a buffer, the end, and one past it. -/
theorem witness_ScheduleOfPosition :
    let buf : List Color := [⟨255, 128, 1⟩]
    (Position.mk 0 2 0).ci < buf.length ∧ (Position.mk 1 0 7).ci = buf.length ∧
      buf.length < (Position.mk 2 0 7).ci := by decide

theorem witness_WireBitsOfFrame : 0 < ([⟨255, 128, 1⟩] : List Color).length := by decide

theorem witness_AdvanceIsNextBit :
    (Position.mk 0 2 0).ci < 1 ∧ (Position.mk 1 0 7).ci ≤ 1 ∧ (Position.mk 1 0 7).pulsesLeft 1 = 0 ∧
      (Position.mk 0 2 0).pulsesLeft 1 = 1 := by decide

theorem witness_ResolveOutcome :
    let s (c : Command) (id : PinId) := resolving c id []
    (s .init 7).launch.cfg.ok = true ∧ (s .init 7).launch.cfg.resolve (s .init 7).id = none ∧
      (s .init 2).launch.cfg.resolve (s .init 2).id = some pin2 ∧ (s .init 2).cmd = .init ∧
      (s .upload 2).launch.cfg.resolve (s .upload 2).id = some pin2 ∧ (s .upload 2).cmd = .upload := by decide

theorem witness_ResolveOfNewCommand :
    let s := resolving .new 2 []
    s.launch.cfg.ok = true ∧ s.launch.cfg.resolve s.id = some pin2 ∧ s.cmd = .new := by decide

theorem witness_DirsetSetsOutput :
    let s := configuring .dirset 0x10
    s.res = some pin2 ∧ s.launch.cfg.ok = true ∧ Memory.wf s.dir ∧ failed.res = none := by decide

theorem witness_DrivelowDrivesLow :
    let s := configuring .drivelow 0x04
    s.res = some pin2 ∧ s.launch.cfg.ok = true ∧ Memory.wf s.port ∧ failed.res = none := by decide

theorem witness_GpioPrimitives : Memory.wf (idle 0x81 0x10).port ∧ Memory.wf (idle 0x81 0x10).dir := by decide

/-- The last number of an interval, and an interval of one number. -/
theorem witness_EveryDrawIsPossible : (4 ≤ 7 ∧ 7 ≤ 7) ∧ (4 ≤ 4 ∧ 4 ≤ 4) := by decide

/-- At the cycle of an event and just before it, with its bit set and clear. -/
theorem witness_LineLevel :
    let P x := lastValue .port 0 x glitch.launch.port glitch.trace
    let D x := lastValue .dir 0 x glitch.launch.dir glitch.trace
    (D 8 &&& 0x04 ≠ 0 ∧ P 8 &&& 0x04 ≠ 0) ∧ (D 12 &&& 0x04 ≠ 0 ∧ P 12 &&& 0x04 = 0) ∧ D 7 &&& 0x04 = 0 := by decide

/-- Also of `NoRunFaults`. -/
theorem witness_InvariantHoldsAtLaunch : exampleLaunch.Ok := ⟨by decide, by decide, by decide⟩

/-- One step from each phase, the last MARGIN of a frame among them. -/
theorem witness_StepKeepsInvariant :
    (∃ s', (idle 0x81 0x10).Inv ∧ step (idle 0x81 0x10) = .next s') ∧
    (∃ s', (resolving .upload 2 [⟨255, 128, 1⟩]).Inv ∧ step (resolving .upload 2 [⟨255, 128, 1⟩]) = .next s') ∧
    (∃ s', failed.Inv ∧ step failed = .next s') ∧
    (∃ s', (configuring .dirset 0x10).Inv ∧ step (configuring .dirset 0x10) = .next s') ∧
    (∃ s', (configuring .ret 0x04).Inv ∧ step (configuring .ret 0x04) = .next s') ∧
    (∃ s', (sending .emit1 ⟨0, 0, 7⟩).Inv ∧ step (sending .emit1 ⟨0, 0, 7⟩) = .next s') ∧
    (∃ s', (sending .margin ⟨0, 2, 0⟩).Inv ∧ step (sending .margin ⟨0, 2, 0⟩) = .next s') ∧
    (∃ s', (latching .latch).Inv ∧ step (latching .latch) = .next s') :=
  ⟨⟨_, idle_inv _ _, rfl⟩, ⟨_, resolving_inv, rfl⟩, ⟨_, failed_inv, rfl⟩, ⟨_, dirset_inv, rfl⟩,
    ⟨_, init_return_inv, rfl⟩, ⟨_, first_pulse_inv, rfl⟩, ⟨_, last_margin_inv, rfl⟩, ⟨_, latching_inv, rfl⟩⟩

theorem witness_BusyBlockNeverSticks : failed.Inv ∧ failed.phase ≠ .idle := ⟨failed_inv, by decide⟩

/-- Also of `BusyBlockKeepsOperands`: a step of the block and one of the host. -/
theorem witness_TraceGrowsInTime :
    (∃ s', step (sending .emit1 ⟨0, 0, 7⟩) = .next s') ∧ (sending .emit1 ⟨0, 0, 7⟩).phase ≠ .idle ∧
      (sending .emit1 ⟨0, 0, 7⟩).next ≠ some .resolve ∧ (sending .emit1 ⟨0, 0, 7⟩).next ≠ some .ret ∧
      ∃ s', step { State.reset with input := [.write .port 0 4] } = .next s' :=
  ⟨⟨_, rfl⟩, by decide, by decide, by decide, _, rfl⟩

theorem witness_BusyBlockTouchesOnlyItsPin :
    (failed.Inv ∧ failed.phase ≠ .idle ∧ failed.res = none ∧ ∃ s', step failed = .next s') ∧
    ((sending .emit1 ⟨0, 0, 7⟩).Inv ∧ (sending .emit1 ⟨0, 0, 7⟩).phase ≠ .idle ∧
      (sending .emit1 ⟨0, 0, 7⟩).res = some pin2 ∧ (sending .emit1 ⟨0, 0, 7⟩).cmd = .upload ∧
      ∃ s', step (sending .emit1 ⟨0, 0, 7⟩) = .next s') :=
  ⟨⟨failed_inv, by decide, rfl, _, rfl⟩, first_pulse_inv, by decide, rfl, rfl, _, rfl⟩

theorem witness_FailedCommandWritesNoPin :
    MayIssue (idle 0x81 0x10) ∧ (idle 0x81 0x10).launch.cfg.resolve 7 = none := by decide

/-- Also of `CommandDurations`, whose bank is canonical by the invariant. -/
theorem witness_InitTiming :
    (idle 0x81 0x10).Inv ∧ MayIssue (idle 0x81 0x10) ∧ (idle 0x81 0x10).launch.cfg.resolve 2 = some pin2 ∧
      (idle 0x81 0x10).launch.cfg.resolve 7 = none :=
  ⟨idle_inv _ _, by decide, by decide, by decide⟩

theorem witness_InitGlitch :
    (idle 0x04 0).Inv ∧ MayIssue (idle 0x04 0) ∧ (idle 0x04 0).launch.cfg.resolve 2 = some pin2 ∧
      Memory.read (idle 0x04 0).port pin2.port &&& pin2.mask = pin2.mask :=
  ⟨idle_inv _ _, by decide, by decide, by decide⟩

/-- Also of `UploadTimeline` and `EmptyUploadIsLatchAlone`. -/
theorem witness_UploadMicroOperations :
    MayIssue (idle 0x81 0x10) ∧ Memory.wf (idle 0x81 0x10).port ∧
      (idle 0x81 0x10).launch.cfg.resolve 2 = some pin2 := by decide

/-- Also of `FramesAreSeparated`. The tolerance is the largest R161 allows EX. -/
theorem witness_FrameLaw :
    (idle 0x81 0x14).Inv ∧ MayIssue (idle 0x81 0x14) ∧ (idle 0x81 0x14).launch.cfg.resolve 2 = some pin2 ∧
      Memory.read (idle 0x81 0x14).dir pin2.port &&& pin2.mask = pin2.mask ∧
      Memory.read (idle 0x81 0x14).port pin2.port &&& pin2.mask = 0 ∧
      2 * 3 < (idle 0x81 0x14).launch.cfg.t1hCyc - (idle 0x81 0x14).launch.cfg.t0hCyc ∧
      ([⟨0, 0, 0⟩] : List Color) ≠ [] :=
  ⟨idle_inv _ _, by decide, by decide, by decide, by decide, by decide, by decide⟩

end Sys2Proof.Tests
end

/-! PROOFS. The statements about the scope of the block: its parameters, its draws, and what a step refuses. -/

namespace Sys2Proof

/-! ### The conversion of microseconds (R9) -/

/-- Rounding up is the lower adjoint of multiplication, which is what makes it the ceiling. -/
theorem ceilDiv_le_iff {n d k : Nat} (hd : 0 < d) : ceilDiv n d ≤ k ↔ n ≤ k * d := by
  unfold ceilDiv
  split
  case isTrue hr =>
    rw [Nat.add_zero, Nat.div_le_iff_le_mul_of_dvd (Nat.ne_of_gt hd) (Nat.dvd_of_mod_eq_zero hr)]
  case isFalse hr =>
    have hne : n ≠ k * d := by
      rintro rfl
      exact hr (Nat.mul_mod_left k d)
    rw [Nat.succ_le_iff, Nat.div_lt_iff_lt_mul hd]
    omega

/-! ### The draws (R11, R12) -/

/-- The free value that gives `d` is the distance of `d` from the lower bound. -/
theorem Config.drawWithin_sub {lo hi d : Nat} (hlo : lo ≤ d) (hhi : d ≤ hi) :
    Config.drawWithin lo hi (d - lo) = d := by
  unfold Config.drawWithin
  split
  · omega
  · rw [Nat.mod_eq_of_lt (by omega)]
    omega

end Sys2Proof

namespace Sys2Proof.Machine

/-! ### A step that stops before any meaning runs (R8, R21, R193) -/

theorem step_badConfig {s : State} (hc : s.launch.cfg.ok = false) : step s = .refused .badConfig := by
  rw [step, machineStep, if_neg (by simp [hc])]

theorem step_illegalPair {s : State} (hc : s.launch.cfg.ok = true) (hp : legalPair s.phase s.next = false) :
    step s = .fault .illegalPair := by
  rw [step, machineStep, if_pos hc, if_neg (by simp [hp])]

end Sys2Proof.Machine

namespace Sys2Proof.Claims
open Sys2Proof Sys2Proof.Machine

/-- Settles O30: the adjunction of `ceilDiv` at `10^6`. -/
theorem microsecondsRoundUp : Obligations.MicrosecondsRoundUp :=
  fun _ _ _ => ceilDiv_le_iff (by decide)

/-- Settles O31: the draws by their definitions, the interval by its bounds and by the free value that reaches each
of its numbers. -/
theorem everyDrawIsPossible : Obligations.EveryDrawIsPossible :=
  ⟨fun _ _ => rfl, fun _ _ _ => rfl, State.takeOvh_eq, State.takeDelay_eq,
    fun _ _ raw h => Config.drawWithin_bounds raw h, fun lo _ d hlo hhi => ⟨d - lo, Config.drawWithin_sub hlo hhi⟩⟩

/-- Settles O10: the two guards of the step, in the order it asks them. -/
theorem stepStopsOutsideTheRules : Obligations.StepStopsOutsideTheRules :=
  fun _ => ⟨step_badConfig, step_illegalPair⟩

end Sys2Proof.Claims

/-! PROOFS. The statements about the state of the block: the state at launch, what each move of the host and each
micro-operation leaves unchanged, the trace in time, the level of the line, and the invariant of every run. -/

namespace Sys2Proof.Machine

/-! ### What the invariant says in each phase (R21, R23 to R26) -/

/-- Every micro-operation but RETURN is scheduled in one phase only (R21). -/
theorem phase_eq_phaseOf {p : Phase} {op : MicroOp} (h : legalPair p (some op) = true) (hop : op ≠ .ret) :
    p = phaseOf op := by
  cases op with
  | ret => exact absurd rfl hop
  | emit0 | emit1 | margin | latch | resolve | dirset | drivelow =>
    revert h
    cases p <;> decide

theorem State.commandOk_idle {s : State} (hp : s.phase = .idle) : s.CommandOk ↔ s.res = none := by
  rw [State.CommandOk, hp]

theorem State.commandOk_resolving {s : State} (hp : s.phase = .resolving) :
    s.CommandOk ↔ s.res = none ∧ s.cmd ≠ .new ∧ (s.cmd = .init → s.buf = []) := by
  rw [State.CommandOk, hp]

theorem State.commandOk_failed {s : State} (hp : s.phase = .failed) :
    s.CommandOk ↔ s.res = none ∧ s.cmd ≠ .new ∧ s.result = false ∧ s.launch.cfg.resolve s.id = none := by
  rw [State.CommandOk, hp]

theorem State.commandOk_configuring {s : State} (hp : s.phase = .configuring) :
    s.CommandOk ↔ s.cmd = .init ∧ s.result = true ∧ s.Resolved ∧ s.ConfiguringOk := by
  rw [State.CommandOk, hp]

theorem State.commandOk_transmitting {s : State} (hp : s.phase = .transmitting) :
    s.CommandOk ↔ s.cmd = .upload ∧ s.result = true ∧ s.Resolved ∧ s.TransmittingOk := by
  rw [State.CommandOk, hp]

theorem State.commandOk_latching {s : State} (hp : s.phase = .latching) :
    s.CommandOk ↔
      s.cmd = .upload ∧ s.result = true ∧ s.Resolved ∧ s.pos = ⟨s.buf.length, 0, 7⟩ ∧
        (s.buf ≠ [] → s.PinLow) := by
  rw [State.CommandOk, hp]

/-- Between two pulses the pin is low: `sched` never chooses MARGIN, so the other case of the rule is a pulse (R158). -/
theorem State.TransmittingOk.pinLow {s : State} (h : s.TransmittingOk) (hn : s.next = some .margin) : s.PinLow := by
  obtain ⟨hci, ⟨-, low⟩ | ⟨hs, -⟩⟩ := h
  · exact low
  · rw [sched_bit hci, hn] at hs
    cases hb : wireBit s.buf[s.pos.ci] s.pos.bi s.pos.ki <;> simp [hb, emitOf] at hs

/-- While DRIVELOW is scheduled the pin is an output (R122, R131). -/
theorem State.ConfiguringOk.pinOutput {s : State} (h : s.ConfiguringOk) (hn : s.next = some .drivelow) :
    s.PinOutput := by
  rcases h with hd | ⟨-, out⟩ | ⟨hr, -⟩
  · rw [hn] at hd
    cases hd
  · exact out
  · rw [hn] at hr
    cases hr

/-! ### What the GPIO primitives establish of the pin -/

theorem State.portClr_pinLow {s : State} {r : PinRes} (hr : s.res = some r) (wf : Memory.wf s.port) :
    (s.portClr r.port r.mask).PinLow := by
  intro q hq
  cases hr.symm.trans hq
  show Memory.read (Memory.write _ _ _) _ &&& _ = _
  rw [Memory.read_write_same _ _ wf, and_not_and_mask]

theorem State.dirSet_pinOutput {s : State} {r : PinRes} (hr : s.res = some r) (wf : Memory.wf s.dir) :
    (s.dirSet r.port r.mask).PinOutput := by
  intro q hq
  cases hr.symm.trans hq
  show Memory.read (Memory.write _ _ _) _ &&& _ = _
  rw [Memory.read_write_same _ _ wf, or_and_mask]

/-- A pulse ends low (R158). -/
theorem State.pulse_pinLow {s : State} {r : PinRes} (high : Nat) (hr : s.res = some r) (wf : Memory.wf s.port) :
    (s.pulse high r).PinLow :=
  State.portClr_pinLow (s := (s.portSet r.port r.mask).setTime (s.t + high)) hr (Memory.write_wf _ _ wf)

/-! ### What a move of the host does to the state -/

theorem HostMove.launch_eq {s s' : State} (m : HostMove s s') : s'.launch = s.launch := by
  cases m with
  | waits _ e => rw [e]
  | passes _ _ _ e => rw [e]; rfl
  | writes r _ _ _ _ e => rw [e, State.hostWrite_eq]; rfl
  | news _ _ _ _ e => rw [e]; rfl
  | inits _ _ _ _ e => rw [e]; rfl
  | uploads _ _ _ _ _ e => rw [e]; rfl

theorem TraceOk.hostWrite {s : State} (c : TraceOk s) (r : GpioReg) (a : Nat) (v : Byte) :
    TraceOk (s.hostWrite r a v) := by
  cases r with
  | port => exact c.writePort ..
  | dir => exact c.writeDir ..

theorem TraceOk.setInput {s : State} (c : TraceOk s) (l : List HostItem) : TraceOk (s.setInput l) :=
  c.of_eq rfl rfl rfl rfl (Nat.le_refl _)

theorem HostMove.traceOk {s s' : State} (m : HostMove s s') (c : TraceOk s) : TraceOk s' := by
  cases m with
  | waits _ e => exact e ▸ c
  | passes d l _ e => exact e ▸ c.of_eq rfl rfl rfl rfl (Nat.le_add_right s.t d)
  | writes r a v l _ e => exact e ▸ (c.setInput l).hostWrite r a v
  | news _ _ _ _ e => exact e ▸ c.of_eq rfl rfl rfl rfl (Nat.le_refl s.t)
  | inits _ _ _ _ e => exact e ▸ c.of_eq rfl rfl rfl rfl (Nat.le_refl s.t)
  | uploads _ _ _ _ _ e => exact e ▸ c.of_eq rfl rfl rfl rfl (Nat.le_refl s.t)

/-- A move of the host leaves the block Idle without a resource, or starts a command under the premise (R126, R128). -/
theorem HostMove.idle_or_starts {s s' : State} (m : HostMove s s') (hp : s.phase = .idle) (hn : s.next = none) :
    (s'.phase = .idle ∧ s'.next = none ∧ s'.res = s.res) ∨
      (s'.phase = .resolving ∧ s'.next = some .resolve ∧ s'.res = s.res ∧ s.launch.nonPreemptive = true ∧
        s'.cmd ≠ .new ∧ (s'.cmd = .init → s'.buf = [])) := by
  cases m with
  | waits _ e =>
    subst e
    exact .inl ⟨hp, hn, rfl⟩
  | passes _ _ _ e => exact .inl (e ▸ ⟨hp, hn, rfl⟩)
  | writes _ _ _ _ _ e =>
    rw [State.hostWrite_eq] at e
    exact .inl (e ▸ ⟨hp, hn, rfl⟩)
  | news _ _ _ _ e => exact .inl (e ▸ ⟨hp, hn, rfl⟩)
  | inits _ _ _ premise e => exact .inr (e ▸ ⟨rfl, rfl, rfl, premise, nofun, fun _ => rfl⟩)
  | uploads _ _ _ _ premise e => exact .inr (e ▸ ⟨rfl, rfl, rfl, premise, nofun, nofun⟩)

theorem HostMove.inv {s s' : State} (m : HostMove s s') (h : s.Inv) (hp : s.phase = .idle) (hn : s.next = none) :
    s'.Inv := by
  have hres : s.res = none := (State.commandOk_idle hp).1 h.command
  rcases m.idle_or_starts hp hn with ⟨hp', hn', hr'⟩ | ⟨hp', hn', hr', premise, hcmd⟩
  · exact (m.traceOk h.traceOk).inv (by rw [hp', hn']; rfl) (fun busy => absurd hp' busy)
      ((State.commandOk_idle hp').2 (hr'.trans hres))
  · exact (m.traceOk h.traceOk).inv (by rw [hp', hn']; rfl) (fun _ => m.launch_eq ▸ premise)
      ((State.commandOk_resolving hp').2 ⟨hr'.trans hres, hcmd⟩)

/-! ### What a micro-operation does to the state -/

/-- No micro-operation touches the operands of the command, the host's script or the launch (R8, R24, R66). -/
theorem MicroMove.operands_eq {s s' : State} {op : MicroOp} (m : MicroMove s s' op) :
    s'.launch = s.launch ∧ s'.cmd = s.cmd ∧ s'.id = s.id ∧ s'.buf = s.buf ∧ s'.input = s.input := by
  cases m <;> subst s' <;> exact ⟨rfl, rfl, rfl, rfl, rfl⟩

/-- Only RESOLVE writes `RESULT` (R23). -/
theorem MicroMove.result_eq {s s' : State} {op : MicroOp} (m : MicroMove s s' op) (h : op ≠ .resolve) :
    s'.result = s.result := by
  cases m with
  | fails | resolvesNew | resolvesInit | resolvesUpload => exact absurd rfl h
  | emit0 _ _ e | emit1 _ _ e | margin _ _ _ e | latch e | dirset _ _ e | drivelow _ _ e | ret e => rw [e]; rfl

/-- Only RESOLVE and RETURN write `RES` (R25). -/
theorem MicroMove.res_eq {s s' : State} {op : MicroOp} (m : MicroMove s s' op) (h : op ≠ .resolve)
    (hr : op ≠ .ret) : s'.res = s.res := by
  cases m with
  | fails | resolvesNew | resolvesInit | resolvesUpload => exact absurd rfl h
  | ret => exact absurd rfl hr
  | emit0 _ _ e | emit1 _ _ e | margin _ _ _ e | latch e | dirset _ _ e | drivelow _ _ e => rw [e]; rfl

/-- Only RETURN delivers a result word (R127). -/
theorem MicroMove.results_eq {s s' : State} {op : MicroOp} (m : MicroMove s s' op) (hr : op ≠ .ret) :
    s'.results = s.results := by
  cases m with
  | ret => exact absurd rfl hr
  | emit0 _ _ e | emit1 _ _ e | margin _ _ _ e | latch e | dirset _ _ e | drivelow _ _ e | fails _ e
  | resolvesNew _ _ _ e | resolvesInit _ _ _ e | resolvesUpload _ _ _ _ _ _ e => rw [e]; rfl

theorem MicroMove.traceOk {s s' : State} {op : MicroOp} (m : MicroMove s s' op) (c : TraceOk s) : TraceOk s' := by
  obtain ⟨-, -, h01, h1b, -⟩ := (Config.ok_iff _).1 c.cfgOk
  cases m with
  | emit0 r _ e => exact e ▸ c.pulse _ (by omega) r
  | emit1 r _ e => exact e ▸ c.pulse _ (by omega) r
  | margin _ _ _ e => exact e ▸ (c.takeOvh.takeDelay _).of_eq rfl rfl rfl rfl (Nat.le_refl _)
  | latch e => exact e ▸ (c.takeOvh.takeDelay _).of_eq rfl rfl rfl rfl (Nat.le_refl _)
  | dirset r _ e => exact e ▸ (c.takeOvh.writeDir ..).of_eq rfl rfl rfl rfl (Nat.le_refl _)
  | drivelow r _ e => exact e ▸ (c.takeOvh.writePort ..).of_eq rfl rfl rfl rfl (Nat.le_refl _)
  | fails _ e | resolvesNew _ _ _ e | resolvesInit _ _ _ e | resolvesUpload _ _ _ _ _ _ e | ret e =>
    exact e ▸ c.takeOvh.of_eq rfl rfl rfl rfl (Nat.le_refl _)

/-- After the pulse of the current bit the block is still Transmitting, with MARGIN scheduled and the pin low. -/
theorem State.Inv.pulse_command {s : State} {r : PinRes} (h : s.Inv) (hp : s.phase = .transmitting) (high : Nat)
    (hr : s.res = some r) :
    legalPair (s.pulse high r).phase (s.pulse high r).next = true ∧ (s.pulse high r).CommandOk := by
  obtain ⟨hcmd, hresult, hres, hci, -⟩ := (State.commandOk_transmitting hp).1 h.command
  have hp' : (s.pulse high r).phase = .transmitting := hp
  exact ⟨by rw [hp']; rfl, (State.commandOk_transmitting hp').2
    ⟨hcmd, hresult, hres, hci, .inl ⟨rfl, State.pulse_pinLow high hr h.portWf⟩⟩⟩

/-- A micro-operation leaves a row of R21, and the command's part of the invariant. -/
theorem MicroMove.command {s s' : State} {op : MicroOp} (m : MicroMove s s' op) (h : s.Inv)
    (hn : s.next = some op) : legalPair s'.phase s'.next = true ∧ s'.CommandOk := by
  have pair : legalPair s.phase (some op) = true := hn ▸ h.pair
  have hcommand := h.command
  cases m with
  | emit0 r hr e => exact e ▸ h.pulse_command (phase_eq_phaseOf pair nofun) _ hr
  | emit1 r hr e => exact e ▸ h.pulse_command (phase_eq_phaseOf pair nofun) _ hr
  | margin p op hs e =>
    obtain ⟨hcmd, hresult, hres, ht⟩ :=
      (State.commandOk_transmitting (phase_eq_phaseOf pair nofun)).1 hcommand
    have low := ht.pinLow hn
    exact e ▸ commandOk_schedule (s := (s.takeOvh.takeDelay s.launch.cfg.marginUs).setPos (adv s.pos)) hs hcmd
      hresult hres (adv_end ht.1) fun _ => low
  | latch e =>
    have hp : s.phase = .latching := phase_eq_phaseOf pair nofun
    have hp' : s'.phase = .latching := by rw [e]; exact hp
    rw [State.commandOk_latching hp] at hcommand
    exact ⟨by rw [hp', e]; rfl, (State.commandOk_latching hp').2 (e ▸ hcommand)⟩
  | fails hr e =>
    obtain ⟨-, hcmd, -⟩ := (State.commandOk_resolving (phase_eq_phaseOf pair nofun)).1 hcommand
    exact e ▸ ⟨rfl, rfl, hcmd, rfl, hr⟩
  | resolvesNew r hr hc e =>
    obtain ⟨-, hcmd, -⟩ := (State.commandOk_resolving (phase_eq_phaseOf pair nofun)).1 hcommand
    exact absurd hc hcmd
  | resolvesInit r hr hc e => exact e ▸ ⟨rfl, hc, rfl, ⟨rfl, hr.symm⟩, .inl rfl⟩
  | resolvesUpload r hr hc p op hs e =>
    exact e ▸ commandOk_schedule
      (s := ((s.takeOvh.setRes (some r)).setResult true).setPos Position.start) hs hc rfl ⟨rfl, hr.symm⟩
      (fun hend => congrArg (Position.mk · 0 7) hend) fun hne => absurd rfl hne
  | dirset r hr e =>
    have hp : s.phase = .configuring := phase_eq_phaseOf pair nofun
    obtain ⟨hcmd, hresult, hres, -⟩ := (State.commandOk_configuring hp).1 hcommand
    have hp' : s'.phase = .configuring := by rw [e]; exact hp
    have out : (s.takeOvh.dirSet r.port r.mask).PinOutput := State.dirSet_pinOutput (s := s.takeOvh) hr h.dirWf
    exact ⟨by rw [hp', e]; rfl, (State.commandOk_configuring hp').2
      (e ▸ ⟨hcmd, hresult, hres, .inr (.inl ⟨rfl, out⟩)⟩)⟩
  | drivelow r hr e =>
    have hp : s.phase = .configuring := phase_eq_phaseOf pair nofun
    obtain ⟨hcmd, hresult, hres, hconf⟩ := (State.commandOk_configuring hp).1 hcommand
    have hp' : s'.phase = .configuring := by rw [e]; exact hp
    have low : (s.takeOvh.portClr r.port r.mask).PinLow := State.portClr_pinLow (s := s.takeOvh) hr h.portWf
    exact ⟨by rw [hp', e]; rfl, (State.commandOk_configuring hp').2
      (e ▸ ⟨hcmd, hresult, hres, .inr (.inr ⟨rfl, hconf.pinOutput hn, low⟩)⟩)⟩
  | ret e => exact e ▸ ⟨rfl, rfl⟩

theorem MicroMove.inv {s s' : State} {op : MicroOp} (m : MicroMove s s' op) (h : s.Inv) (busy : s.phase ≠ .idle)
    (hn : s.next = some op) : s'.Inv := by
  obtain ⟨pair, command⟩ := m.command h hn
  obtain ⟨hl, -⟩ := m.operands_eq
  exact (m.traceOk h.traceOk).inv pair (fun _ => hl ▸ h.premise busy) command

/-- The invariant is kept by a step of the host and by a step of the block. -/
theorem step_inv {s s' : State} (h : s.Inv) (hs : step s = .next s') : s'.Inv := by
  rcases step_next_cases hs with ⟨idle, hn, m⟩ | ⟨busy, op, hn, m⟩
  · exact m.inv h idle hn
  · exact m.inv h busy hn

/-! ### The trace in time (R22, R27) -/

/-- From `s` to `s'` time does not go back, and the trace gains only events of one agent within that time. -/
def GrowsBy (g : Agent) (s s' : State) : Prop :=
  s.t ≤ s'.t ∧ ∃ evs, s'.trace = s.trace ++ evs ∧ ∀ e ∈ evs, s.t ≤ e.time ∧ e.time ≤ s'.t ∧ e.agent = g

/-- A step that writes no register adds no event. -/
theorem GrowsBy.of_trace_eq {g : Agent} {s s' : State} (ht : s.t ≤ s'.t) (h : s'.trace = s.trace) :
    GrowsBy g s s' :=
  ⟨ht, [], by rw [h, List.append_nil], nofun⟩

/-- A step that writes one register adds one event. -/
theorem GrowsBy.of_trace_concat {g : Agent} {s s' : State} {e : Event} (ht : s.t ≤ s'.t)
    (h : s'.trace = s.trace ++ [e]) (lo : s.t ≤ e.time) (hi : e.time ≤ s'.t) (hg : e.agent = g) :
    GrowsBy g s s' :=
  ⟨ht, [e], h, fun _ hf => List.mem_singleton.1 hf ▸ ⟨lo, hi, hg⟩⟩

theorem HostMove.growsBy {s s' : State} (m : HostMove s s') : GrowsBy .host s s' := by
  cases m with
  | waits _ e => exact e ▸ .of_trace_eq (Nat.le_refl _) rfl
  | passes d _ _ e => exact e ▸ .of_trace_eq (Nat.le_add_right s.t d) rfl
  | writes r a v _ _ e =>
    rw [State.hostWrite_eq] at e
    exact e ▸ .of_trace_concat (Nat.le_refl s.t) rfl (Nat.le_refl s.t) (Nat.le_refl s.t) rfl
  | news _ _ _ _ e => exact e ▸ .of_trace_eq (Nat.le_refl s.t) rfl
  | inits _ _ _ _ e => exact e ▸ .of_trace_eq (Nat.le_refl s.t) rfl
  | uploads _ _ _ _ _ e => exact e ▸ .of_trace_eq (Nat.le_refl s.t) rfl

/-- Both writes of a pulse lie in its bit period (R101, R102). -/
theorem GrowsBy.pulse (s : State) {high : Nat} (h : high ≤ s.launch.cfg.bitCyc) (r : PinRes) :
    GrowsBy .block s (s.pulse high r) := by
  refine ⟨Nat.le_add_right s.t _, _, List.append_assoc .., ?_⟩
  intro e he
  rcases List.mem_append.1 he with he | he
  · rw [List.mem_singleton.1 he]
    exact ⟨Nat.le_refl s.t, Nat.le_add_right s.t _, rfl⟩
  · rw [List.mem_singleton.1 he]
    exact ⟨Nat.le_add_right s.t _, Nat.add_le_add_left h s.t, rfl⟩

theorem MicroMove.growsBy {s s' : State} {op : MicroOp} (m : MicroMove s s' op) (hc : s.launch.cfg.ok = true) :
    GrowsBy .block s s' := by
  obtain ⟨-, -, h01, h1b, -⟩ := (Config.ok_iff _).1 hc
  have ovh : s.t ≤ s.takeOvh.t := Nat.le_add_right s.t _
  have delay (us : Nat) : s.t ≤ (s.takeOvh.takeDelay us).t := Nat.le_trans ovh (Nat.le_add_right s.takeOvh.t _)
  cases m with
  | emit0 r _ e => exact e ▸ .pulse s (by omega) r
  | emit1 r _ e => exact e ▸ .pulse s (by omega) r
  | margin _ _ _ e => exact e ▸ .of_trace_eq (delay _) rfl
  | latch e => exact e ▸ .of_trace_eq (delay _) rfl
  | dirset _ _ e => exact e ▸ .of_trace_concat ovh rfl ovh (Nat.le_refl _) rfl
  | drivelow _ _ e => exact e ▸ .of_trace_concat ovh rfl ovh (Nat.le_refl _) rfl
  | fails _ e | resolvesNew _ _ _ e | resolvesInit _ _ _ e | resolvesUpload _ _ _ _ _ _ e | ret e =>
    exact e ▸ .of_trace_eq ovh rfl

/-- The agent of a step's events is the one whose step it is: the host's while Idle, else the block's. -/
theorem step_growsBy {s s' : State} (hs : step s = .next s') :
    ∃ g, (g = .host ↔ s.phase = .idle) ∧ GrowsBy g s s' := by
  rcases step_next_cases hs with ⟨idle, -, m⟩ | ⟨busy, op, -, m⟩
  · exact ⟨.host, iff_of_true rfl idle, m.growsBy⟩
  · exact ⟨.block, iff_of_false nofun busy, m.growsBy (step_next_legal hs).1⟩

/-! ### The level of the line (R37) -/

/-- The last event of a trace gives the value when it counts; otherwise the events before it do. -/
theorem lastValue_concat (r : GpioReg) (a x : Nat) (launch : Memory) (l : List Event) (e : Event) :
    Claims.lastValue r a x launch (l ++ [e]) =
      if e.reg = r ∧ e.addr = a ∧ e.time ≤ x then e.value else Claims.lastValue r a x launch l := by
  have counts : (e.reg == r && e.addr == a && decide (e.time ≤ x)) =
      decide (e.reg = r ∧ e.addr = a ∧ e.time ≤ x) := by
    rw [Bool.eq_iff_iff]
    simp only [Bool.and_eq_true, beq_iff_eq, decide_eq_true_eq, and_assoc]
  unfold Claims.lastValue
  rw [List.filter_append, List.filter_cons, List.filter_nil, counts]
  by_cases h : e.reg = r ∧ e.addr = a ∧ e.time ≤ x
  · rw [if_pos h, if_pos (decide_eq_true h), List.getLast?_concat]
  · rw [if_neg h, if_neg (fun hd => h (of_decide_eq_true hd)), List.append_nil]

/-- Reading the events in order, each overriding the one before, finds the value of the last that counts. -/
theorem regAt_eq_lastValue (r : GpioReg) (a x : Nat) (launch : Memory) (l : List Event) :
    regAt r a x (Memory.read launch a) l = Claims.lastValue r a x launch l := by
  obtain ⟨k, rfl⟩ : ∃ k, l = List.reverse k := ⟨l.reverse, l.reverse_reverse.symm⟩
  induction k with
  | nil => rfl
  | cons e k ih => rw [List.reverse_cons, regAt_append, ih, lastValue_concat, regAt, regAt]

theorem State.line_eq (s : State) (a : Nat) (m : Byte) (x : Nat) :
    s.line a m x =
      if Claims.lastValue .dir a x s.launch.dir s.trace &&& m = 0 then .undriven
      else if Claims.lastValue .port a x s.launch.port s.trace &&& m = 0 then .low
      else .high := by
  rw [State.line, regAt_eq_lastValue, regAt_eq_lastValue]

/-! ### The launch (R38, R200) -/

/-- A launch with any script starts from an invariant state: nothing has been written, and no command runs. -/
theorem Launch.Ok.inv {l : Launch} (h : l.Ok) (script : List HostItem) :
    ({ State.ofLaunch l with input := script } : State).Inv where
  cfgOk := h.cfgOk
  pair := rfl
  portWf := h.portWf
  dirWf := h.dirWf
  launchPortWf := h.portWf
  launchDirWf := h.dirWf
  portTraced := rfl
  dirTraced := rfl
  traceOrdered := List.Pairwise.nil
  tracePast := nofun
  premise := fun busy => absurd rfl busy
  command := rfl

theorem exampleLaunch_ok : exampleLaunch.Ok := ⟨by decide, by decide, by decide⟩

/-- With nothing left in the host's script an Idle block waits (R192, R201). -/
theorem step_idle_waits {s : State} (hc : s.launch.cfg.ok = true) (hp : s.phase = .idle) (hn : s.next = none)
    (hi : s.input = []) : step s = .next s := by
  rw [step_host hc hp hn, hostStep, hi]

end Sys2Proof.Machine

namespace Sys2Proof.Claims
open Sys2Proof Sys2Proof.Machine

/-- Settles O34: by the moves of the host and the micro-operations, each keeping the registers' half of the invariant
and the command's. -/
theorem stepKeepsInvariant : Obligations.StepKeepsInvariant :=
  fun _ _ => step_inv

/-- Settles O32: the line reads each register as its last event leaves it. -/
theorem lineLevel : Obligations.LineLevel := by
  intro s a m x P D
  rw [State.line_eq]
  exact ⟨fun hd hp => by rw [if_neg hd, if_neg hp], fun hd hp => by rw [if_neg hd, if_pos hp], fun hd => if_pos hd⟩

/-- Settles O37: a move of the host writes as the host, a micro-operation as the block. -/
theorem traceGrowsInTime : Obligations.TraceGrowsInTime := by
  intro s s' hs
  obtain ⟨g, hg, ht, evs, htrace, hevs⟩ := step_growsBy hs
  refine ⟨ht, evs, htrace, fun e he => ?_⟩
  obtain ⟨lo, hi, hagent⟩ := hevs e he
  exact ⟨lo, hi, hagent ▸ hg⟩

/-- Settles O38: what each micro-operation leaves unchanged, and for the host's moves the launch. -/
theorem busyBlockKeepsOperands : Obligations.BusyBlockKeepsOperands := by
  intro s s' hs
  rcases step_next_cases hs with ⟨idle, -, m⟩ | ⟨-, op, hn, m⟩
  · exact ⟨m.launch_eq, fun busy => absurd idle busy⟩
  · obtain ⟨hlaunch, hcmd, hid, hbuf, hinput⟩ := m.operands_eq
    rw [hn]
    simp only [ne_eq, Option.some.injEq]
    exact ⟨hlaunch, fun _ => ⟨hcmd, hid, hbuf, hinput, m.result_eq, m.res_eq, m.results_eq⟩⟩

/-- Settles O1: the launch state by definition; an Idle block without a script waits. -/
theorem launchLeavesIdleMachine : Obligations.LaunchLeavesIdleMachine :=
  ⟨fun _ => ⟨rfl, rfl, rfl, rfl, rfl, fun _ => rfl, fun _ => rfl, fun hc => step_idle_waits hc rfl rfl rfl⟩, rfl⟩

/-- Settles O8: with a good configuration and a row of R21 the step dispatches on `NEXT`. -/
theorem stepRunsScheduledMicroOp : Obligations.StepRunsScheduledMicroOp :=
  fun _ _ => step_micro

/-- Settles O33: every good launch, and the example launch of `State.reset`. -/
theorem invariantHoldsAtLaunch : Obligations.InvariantHoldsAtLaunch :=
  ⟨fun _ script h => h.inv script, exampleLaunch_ok.inv []⟩

end Sys2Proof.Claims

/-! PROOFS. The statements about memory: the GPIO primitives, the GPIO bits a busy block touches, and a position past
the buffer. -/

namespace Sys2Proof.Machine

/-! ### A bank that changes at most at one pin (R53, R105) -/

/-- Clearing masked bits keeps the others; `or_and_not` says it of setting them. -/
theorem and_not_and_not (v m : Byte) : (v &&& ~~~m) &&& ~~~m = v &&& ~~~m := by
  rw [BitVec.and_assoc, BitVec.and_self]

/-- From `m` to `m'` a bank is kept, or one register is written: that of the resource's port, its bits outside the
resource's mask kept. -/
inductive PinWrite (res : Option PinRes) (m m' : Memory) : Prop where
  | keeps (e : m' = m)
  | writes (r : PinRes) (v : Byte) (hr : res = some r)
      (hv : v &&& ~~~r.mask = Memory.read m r.port &&& ~~~r.mask) (e : m' = Memory.write m r.port v)

theorem PinWrite.eq_of_none {res : Option PinRes} {m m' : Memory} (w : PinWrite res m m') (hres : res = none) :
    m' = m := by
  cases w with
  | keeps e => exact e
  | writes r v hr => cases hr.symm.trans hres

theorem PinWrite.read_of_ne {res : Option PinRes} {m m' : Memory} {r : PinRes} {a : Nat} (w : PinWrite res m m')
    (hres : res = some r) (ha : a ≠ r.port) : Memory.read m' a = Memory.read m a := by
  cases w with
  | keeps e => rw [e]
  | writes q v hq _ e =>
    cases hq.symm.trans hres
    rw [e, Memory.read_write_ne m v ha]

theorem PinWrite.read_and_not_mask {res : Option PinRes} {m m' : Memory} {r : PinRes} (w : PinWrite res m m')
    (wf : Memory.wf m) (hres : res = some r) :
    Memory.read m' r.port &&& ~~~r.mask = Memory.read m r.port &&& ~~~r.mask := by
  cases w with
  | keeps e => rw [e]
  | writes q v hq hv e =>
    cases hq.symm.trans hres
    rw [e, Memory.read_write_same _ v wf, hv]

/-! ### What a micro-operation does to the GPIO banks -/

/-- Both pulses and DRIVELOW leave the pin's port bit clear; no other micro-operation writes a port (R105, R125). -/
theorem MicroMove.port_pinWrite {s s' : State} {op : MicroOp} (m : MicroMove s s' op) (wf : Memory.wf s.port) :
    PinWrite s.res s.port s'.port := by
  cases m with
  | emit0 r hr e | emit1 r hr e =>
    rw [State.pulse_eq _ _ _ wf] at e
    exact .writes r _ hr (and_not_and_not _ _) (congrArg State.port e)
  | drivelow r hr e => exact .writes r _ hr (and_not_and_not _ _) (congrArg State.port e)
  | margin _ _ _ e | latch e | fails _ e | resolvesNew _ _ _ e | resolvesInit _ _ _ e
  | resolvesUpload _ _ _ _ _ _ e | dirset _ _ e | ret e =>
    exact e ▸ .keeps rfl

/-- Only DIRSET writes a direction register (R124). -/
theorem MicroMove.dir_eq {s s' : State} {op : MicroOp} (m : MicroMove s s' op) (h : op ≠ .dirset) :
    s'.dir = s.dir := by
  cases m with
  | dirset => exact absurd rfl h
  | emit0 _ _ e | emit1 _ _ e | margin _ _ _ e | latch e | fails _ e | resolvesNew _ _ _ e | resolvesInit _ _ _ e
  | resolvesUpload _ _ _ _ _ _ e | drivelow _ _ e | ret e => rw [e]; rfl

theorem MicroMove.dir_pinWrite {s s' : State} {op : MicroOp} (m : MicroMove s s' op) :
    PinWrite s.res s.dir s'.dir := by
  by_cases h : op = .dirset
  · subst h
    cases m with
    | dirset r hr e => exact .writes r _ hr (or_and_not _ _) (congrArg State.dir e)
  · exact .keeps (m.dir_eq h)

/-- DIRSET belongs to INIT, so UPLOAD never sets a direction (D15). -/
theorem State.Inv.next_ne_dirset {s : State} (h : s.Inv) (hc : s.cmd = .upload) : s.next ≠ some .dirset := by
  intro hn
  have pair : legalPair s.phase (some .dirset) = true := hn ▸ h.pair
  obtain ⟨hinit, -⟩ := (State.commandOk_configuring (phase_eq_phaseOf pair nofun)).1 h.command
  cases hc.symm.trans hinit

/-! ### A position past the buffer (R52) -/

theorem exec_margin_outside {s : State} (h : s.buf.length < (adv s.pos).ci) :
    exec .margin s = .fault .bufferIndex := by
  rw [exec_margin]
  exact State.schedule_none (sched_outside h)

end Sys2Proof.Machine

namespace Sys2Proof.Claims
open Sys2Proof Sys2Proof.Machine

/-- Settles O29: each primitive is one write of its bank, and a read after a write sees it at its address only. -/
theorem gpioPrimitives : Obligations.GpioPrimitives := by
  intro s a m
  refine ⟨fun wf => ⟨?_, ?_⟩, fun wf => ?_⟩
  · exact ⟨_, State.portSet_eq s a m, fun b => Memory.read_write a b _ wf⟩
  · exact ⟨_, State.portClr_eq s a m, fun b => Memory.read_write a b _ wf⟩
  · exact ⟨_, State.dirSet_eq s a m, fun b => Memory.read_write a b _ wf⟩

/-- Settles O39: a micro-operation writes each bank at most at its pin, and DIRSET is never UPLOAD's. -/
theorem busyBlockTouchesOnlyItsPin : Obligations.BusyBlockTouchesOnlyItsPin := by
  intro s s' h busy hs
  rcases step_next_cases hs with ⟨idle, -⟩ | ⟨-, op, hn, m⟩
  · exact absurd idle busy
  · have port := m.port_pinWrite h.portWf
    have dir := m.dir_pinWrite
    refine ⟨fun hr => ⟨port.eq_of_none hr, dir.eq_of_none hr⟩, fun r hr => ⟨fun a ha => ?_, ?_, ?_⟩, fun hc => ?_⟩
    · exact ⟨port.read_of_ne hr ha, dir.read_of_ne hr ha⟩
    · exact port.read_and_not_mask h.portWf hr
    · exact dir.read_and_not_mask h.dirWf hr
    · exact m.dir_eq fun hop => h.next_ne_dirset hc (hop ▸ hn)

/-- Settles O19: `sched` reads a colour that is not there, so scheduling faults. -/
theorem marginPastBufferFaults : Obligations.MarginPastBufferFaults :=
  fun _ => exec_margin_outside

end Sys2Proof.Claims

/-! PROOFS. The statements about the encoding: the decoder's verdicts, the encoder as its inverse in both directions,
and the assembler. -/

namespace Sys2Proof

/-! ### The fields of a word (R73, R76) -/

theorem Word.cnt_lt (w : Word) : w.cnt < 65536 := (w.extractLsb' 0 16).isLt

/-- A command word whose operation and count are known is the encoding of them. -/
theorem encodeCommandWord_of_fields {w : Word} {opc : Byte} {n : Nat} (ht : w.top = opc) (hc : w.cnt = n) :
    encodeCommandWord opc w.pin n = w := by
  subst ht hc
  exact encodeCommandWord_fields w

theorem map_colour_encodeColour (cs : List Color) : (cs.map encodeColour).map Word.colour = cs := by
  rw [List.map_map]
  exact List.map_id'' encodeColour_colour cs

theorem map_encodeColour_colour {ws : List Word} (h : ∀ w ∈ ws, w.top = 0) :
    (ws.map Word.colour).map encodeColour = ws := by
  rw [List.map_map]
  exact (List.map_congr_left (g := id) fun w hw => encodeColour_of_top (h w hw)).trans (List.map_id ws)

/-! ### The verdict in each row of R79 -/

theorem decode_reservedOpcode {w : Word} {ws : List Word} (h1 : w.top ≠ 1) (h2 : w.top ≠ 2) (h3 : w.top ≠ 3) :
    decode (w :: ws) = .reserved .opcode := by
  rw [decode, if_neg h1, if_neg h2, if_neg h3]

theorem decode_reservedCount {w : Word} {ws : List Word} (ht : w.top = 1 ∨ w.top = 2) (hc : w.cnt ≠ 0) :
    decode (w :: ws) = .reserved .count := by
  rcases ht with ht | ht
  · rw [decode, if_pos ht, if_neg hc]
  · rw [decode, if_neg (by rw [ht]; decide), if_pos ht, if_neg hc]

theorem decode_new {w : Word} {ws : List Word} (ht : w.top = 1) (hc : w.cnt = 0) :
    decode (w :: ws) = .command (.new w.pin) ws := by
  rw [decode, if_pos ht, if_pos hc]

theorem decode_init {w : Word} {ws : List Word} (ht : w.top = 2) (hc : w.cnt = 0) :
    decode (w :: ws) = .command (.init w.pin) ws := by
  rw [decode, if_neg (by rw [ht]; decide), if_pos ht, if_pos hc]

theorem decode_upload {w : Word} {ws : List Word} (ht : w.top = 3) :
    decode (w :: ws) = decodeUpload w.pin w.cnt ws := by
  rw [decode, if_neg (by rw [ht]; decide), if_neg (by rw [ht]; decide), if_pos ht]

theorem decodeUpload_reserved {pin : PinId} {n : Nat} {ws : List Word} (hr : reservedColour n ws = true) :
    decodeUpload pin n ws = .reserved .colour := by
  rw [decodeUpload, if_pos hr]

theorem decodeUpload_incomplete {pin : PinId} {n : Nat} {ws : List Word} (hr : ¬ reservedColour n ws = true)
    (hl : ws.length < n) : decodeUpload pin n ws = .incomplete := by
  rw [decodeUpload, if_neg hr, if_pos ((tooShort_iff n ws).2 hl)]

theorem decodeUpload_command {pin : PinId} {n : Nat} {ws : List Word} (hr : ¬ reservedColour n ws = true)
    (hl : n ≤ ws.length) :
    decodeUpload pin n ws = .command (.upload pin ((ws.take n).map Word.colour)) (ws.drop n) := by
  rw [decodeUpload, if_neg hr, if_neg (by rw [tooShort_iff]; omega)]

/-! ### The payload of an UPLOAD, in both directions (R76, R80) -/

theorem decodeUpload_encoded (pin : PinId) (cs : List Color) (rest : List Word) :
    decodeUpload pin cs.length (cs.map encodeColour ++ rest) = .command (.upload pin cs) rest := by
  have hlen : (cs.map encodeColour).length = cs.length := List.length_map _
  rw [decodeUpload_command (by simp [reservedColour_encoded]) (by simp), List.take_left' hlen, List.drop_left' hlen,
    map_colour_encodeColour]

/-- The payload of an accepted UPLOAD has passed the colour check, so it is the encoding of its colours. -/
theorem decodeUpload_eq_command {pin : PinId} {n : Nat} {ws rest : List Word} {i : Instr}
    (h : decodeUpload pin n ws = .command i rest) :
    ∃ cs, i = .upload pin cs ∧ cs.length = n ∧ ws = cs.map encodeColour ++ rest := by
  by_cases hr : reservedColour n ws = true
  · rw [decodeUpload_reserved hr] at h
    cases h
  · by_cases hl : ws.length < n
    · rw [decodeUpload_incomplete hr hl] at h
      cases h
    · rw [decodeUpload_command hr (by omega)] at h
      cases h
      have clear : ∀ w ∈ ws.take n, w.top = 0 := by simpa [reservedColour_iff] using hr
      refine ⟨_, rfl, by simp; omega, ?_⟩
      rw [map_encodeColour_colour clear, List.take_append_drop]

/-! ### The micro-operation code, in both directions (R78) -/

theorem encode_toInstr (op : MicroOp) : encode op.toInstr = .micro op.code := by cases op <;> rfl

theorem code_decodeMicro : ∀ c : BitVec 3, (decodeMicro c).code = c := by decide

end Sys2Proof

namespace Sys2Proof.Machine

/-! ### A step that refuses a rejected command (R79, R193) -/

theorem leadingWords_words (ws : List Word) : leadingWords (ws.map HostItem.word) = ws := by
  induction ws with
  | nil => rfl
  | cons w ws ih => rw [List.map_cons, leadingWords, ih]

theorem hostStep_reserved {s : State} {w : Word} {l : List HostItem} {k : ReservedKind}
    (hi : s.input = .word w :: l) (hd : decode (w :: leadingWords l) = .reserved k) :
    hostStep s = .refused (.reserved k) := by
  simp only [hostStep, hi, hd]

theorem hostStep_incomplete {s : State} {w : Word} {l : List HostItem}
    (hi : s.input = .word w :: l) (hd : decode (w :: leadingWords l) = .incomplete) :
    hostStep s = .refused .incomplete := by
  simp only [hostStep, hi, hd]

/-! ### The lines the assembler takes (R81) -/

/-- The `.color` line of a colour. -/
def colourLine (c : Color) : AsmItem := .color c.r.toNat c.g.toNat c.b.toNat

/-- `TakenLine i due due' w`: the assembler takes line `i` where `due` `.color` lines are due, `due'` are due after it,
and its word is `w`. -/
inductive TakenLine : AsmItem → Nat → Nat → Word → Prop where
  | new (pin : PinId) : TakenLine (.new pin.toNat) 0 0 (encodeCommandWord 1 pin 0)
  | init (pin : PinId) : TakenLine (.init pin.toNat) 0 0 (encodeCommandWord 2 pin 0)
  | upload (pin : PinId) (n : Nat) (h : n < 65536) :
      TakenLine (.upload pin.toNat n) 0 n (encodeCommandWord 3 pin n)
  | color (c : Color) (due : Nat) : TakenLine (colourLine c) (due + 1) due (encodeColour c)

/-- A number that fits a byte is the value of a byte. -/
theorem exists_byte_toNat {n : Nat} (h : n < 256) : ∃ b : Byte, n = b.toNat :=
  ⟨BitVec.ofNat 8 n, (Nat.mod_eq_of_lt h).symm⟩

theorem TakenLine.word_coloursDue {i : AsmItem} {due due' : Nat} {w : Word} (h : TakenLine i due due' w) :
    i.word = some w ∧ i.coloursDue due = some due' := by
  cases h with
  | new pin | init pin => simp [AsmItem.word, AsmItem.coloursDue, pin.isLt]
  | upload pin n h => simp [AsmItem.word, AsmItem.coloursDue, pin.isLt, h]
  | color c => simp [AsmItem.word, AsmItem.coloursDue, colourLine, c.r.isLt, c.g.isLt, c.b.isLt]

theorem takenLine_of_word {i : AsmItem} {due due' : Nat} {w : Word} (hw : i.word = some w)
    (hd : i.coloursDue due = some due') : TakenLine i due due' w := by
  match i, due, hd with
  | .new pin, 0, rfl =>
    obtain ⟨hp, e⟩ := Option.ite_none_right_eq_some.1 hw
    obtain ⟨pin, rfl⟩ := exists_byte_toNat hp
    cases e
    simpa using TakenLine.new pin
  | .init pin, 0, rfl =>
    obtain ⟨hp, e⟩ := Option.ite_none_right_eq_some.1 hw
    obtain ⟨pin, rfl⟩ := exists_byte_toNat hp
    cases e
    simpa using TakenLine.init pin
  | .upload pin n, 0, rfl =>
    obtain ⟨⟨hp, hn⟩, e⟩ := Option.ite_none_right_eq_some.1 hw
    obtain ⟨pin, rfl⟩ := exists_byte_toNat hp
    cases e
    simpa using TakenLine.upload pin n hn
  | .color r g b, due + 1, rfl =>
    obtain ⟨⟨hr, hg, hb⟩, e⟩ := Option.ite_none_right_eq_some.1 hw
    obtain ⟨r, rfl⟩ := exists_byte_toNat hr
    obtain ⟨g, rfl⟩ := exists_byte_toNat hg
    obtain ⟨b, rfl⟩ := exists_byte_toNat hb
    cases e
    simpa [colourLine] using TakenLine.color ⟨r, g, b⟩ due

theorem assembleFrom_cons_iff {i : AsmItem} {is : List AsmItem} {due : Nat} {ws : List Word} :
    assembleFrom due (i :: is) = some ws ↔
      ∃ w due' ws', TakenLine i due due' w ∧ assembleFrom due' is = some ws' ∧ ws = w :: ws' := by
  constructor
  · intro h
    rw [assembleFrom] at h
    split at h
    · obtain ⟨ws', hws, rfl⟩ := Option.map_eq_some_iff.1 h
      exact ⟨_, _, ws', takenLine_of_word ‹_› ‹_›, hws, rfl⟩
    · cases h
  · rintro ⟨w, due', ws', taken, h, rfl⟩
    obtain ⟨hw, hd⟩ := taken.word_coloursDue
    rw [assembleFrom]
    simp only [hw, hd, h, Option.map_some]

theorem assembleFrom_colours {ls : List AsmItem} {ws : List Word} (h : assembleFrom 0 ls = some ws) (cs : List Color) :
    assembleFrom cs.length (cs.map colourLine ++ ls) = some (cs.map encodeColour ++ ws) := by
  induction cs with
  | nil => exact h
  | cons c cs ih => exact assembleFrom_cons_iff.2 ⟨_, _, _, .color c _, ih, rfl⟩

end Sys2Proof.Machine

namespace Sys2Proof.Claims
open Sys2Proof Sys2Proof.Machine

/-! ### The words of a host command, in both directions (R73 to R80) -/

/-- Format H or format M: an instruction is a host command or a micro-operation. -/
theorem isCommand_or_toInstr (i : Instr) : isCommand i ∨ ∃ op : MicroOp, i = op.toInstr := by
  cases i with
  | new pin => exact .inl (.inl ⟨pin, rfl⟩)
  | init pin => exact .inl (.inr (.inl ⟨pin, rfl⟩))
  | upload pin cs => exact .inl (.inr (.inr ⟨pin, cs, rfl⟩))
  | emit0 => exact .inr ⟨.emit0, rfl⟩
  | emit1 => exact .inr ⟨.emit1, rfl⟩
  | margin => exact .inr ⟨.margin, rfl⟩
  | latch => exact .inr ⟨.latch, rfl⟩
  | resolve => exact .inr ⟨.resolve, rfl⟩
  | dirset => exact .inr ⟨.dirset, rfl⟩
  | drivelow => exact .inr ⟨.drivelow, rfl⟩
  | ret => exact .inr ⟨.ret, rfl⟩

theorem encode_of_isCommand {i : Instr} (h : isCommand i) : encode i = .host (hostWordsOf i) := by
  rcases h with ⟨pin, rfl⟩ | ⟨pin, rfl⟩ | ⟨pin, cs, rfl⟩ <;> rfl

theorem length_hostWordsOf {i : Instr} (h : isCommand i) : (hostWordsOf i).length = i.wordCount := by
  rcases h with ⟨pin, rfl⟩ | ⟨pin, rfl⟩ | ⟨pin, cs, rfl⟩
  · exact Laws.EncodedLength.new pin
  · exact Laws.EncodedLength.init pin
  · exact Laws.EncodedLength.upload pin cs

theorem hostWordsOf_upload (pin : PinId) (cs : List Color) :
    hostWordsOf (.upload pin cs) = encodeCommandWord 3 pin cs.length :: cs.map encodeColour := rfl

theorem wf_upload {pin : PinId} {cs : List Color} : (Instr.upload pin cs).wf = true ↔ cs.length < 65536 := by
  rw [Instr.wf, decide_eq_true_iff]

theorem decode_hostWordsOf {i : Instr} (h : isCommand i) (wf : i.wf = true) (rest : List Word) :
    decode (hostWordsOf i ++ rest) = .command i rest := by
  rcases h with ⟨pin, rfl⟩ | ⟨pin, rfl⟩ | ⟨pin, cs, rfl⟩
  · exact (decode_new (encodeCommandWord_top 1 pin 0) (encodeCommandWord_cnt 1 pin 0 (by decide))).trans
      (by rw [encodeCommandWord_pin]; rfl)
  · exact (decode_init (encodeCommandWord_top 2 pin 0) (encodeCommandWord_cnt 2 pin 0 (by decide))).trans
      (by rw [encodeCommandWord_pin]; rfl)
  · rw [hostWordsOf_upload, List.cons_append, decode_upload (encodeCommandWord_top ..), encodeCommandWord_pin,
      encodeCommandWord_cnt _ _ _ (wf_upload.1 wf), decodeUpload_encoded]

theorem eq_hostWordsOf_of_decode {ws rest : List Word} {i : Instr} (h : decode ws = .command i rest) :
    i.wf = true ∧ ws = hostWordsOf i ++ rest := by
  cases ws with
  | nil => cases h
  | cons w ws =>
    by_cases h12 : w.top = 1 ∨ w.top = 2
    · by_cases hc : w.cnt = 0
      · rcases h12 with ht | ht
        · rw [decode_new ht hc] at h
          cases h
          exact ⟨rfl, congrArg (· :: _) (encodeCommandWord_of_fields ht hc).symm⟩
        · rw [decode_init ht hc] at h
          cases h
          exact ⟨rfl, congrArg (· :: _) (encodeCommandWord_of_fields ht hc).symm⟩
      · rw [decode_reservedCount h12 hc] at h
        cases h
    · rw [not_or] at h12
      obtain ⟨h1, h2⟩ := h12
      by_cases h3 : w.top = 3
      · rw [decode_upload h3] at h
        obtain ⟨cs, rfl, hlen, rfl⟩ := decodeUpload_eq_command h
        refine ⟨wf_upload.2 (hlen ▸ w.cnt_lt), ?_⟩
        rw [hostWordsOf_upload, encodeCommandWord_of_fields h3 hlen.symm, List.cons_append]
      · rw [decode_reservedOpcode h1 h2 h3] at h
        cases h

/-! ### The assembler and the lines of the host commands (R81) -/

/-- The lines of one command are taken where none is due, and leave none due. -/
theorem assembleFrom_asmLines {i : Instr} {ls : List AsmItem} {ws : List Word} (command : isCommand i)
    (wf : i.wf = true) (h : assembleFrom 0 ls = some ws) :
    assembleFrom 0 (asmLines i ++ ls) = some (hostWordsOf i ++ ws) := by
  rcases command with ⟨pin, rfl⟩ | ⟨pin, rfl⟩ | ⟨pin, cs, rfl⟩
  · exact assembleFrom_cons_iff.2 ⟨_, _, _, .new pin, h, rfl⟩
  · exact assembleFrom_cons_iff.2 ⟨_, _, _, .init pin, h, rfl⟩
  · exact assembleFrom_cons_iff.2 ⟨_, _, _, .upload pin _ (wf_upload.1 wf), assembleFrom_colours h cs, rfl⟩

theorem assembleFrom_flatMap_asmLines {is : List Instr} (h : ∀ i ∈ is, isCommand i ∧ i.wf = true) :
    assembleFrom 0 (is.flatMap asmLines) = some (is.flatMap hostWordsOf) := by
  induction is with
  | nil => rfl
  | cons i is ih =>
    obtain ⟨⟨command, wf⟩, hrest⟩ := List.forall_mem_cons.1 h
    exact assembleFrom_asmLines command wf (ih hrest)

/-- What the assembler takes while colours are due: those colours, then the lines of well-formed commands. -/
theorem exists_commands_of_assembleFrom {lines : List AsmItem} {due : Nat} {ws : List Word}
    (h : assembleFrom due lines = some ws) :
    ∃ (cs : List Color) (is : List Instr), cs.length = due ∧ (∀ i ∈ is, isCommand i ∧ i.wf = true) ∧
      lines = cs.map colourLine ++ is.flatMap asmLines ∧ ws = cs.map encodeColour ++ is.flatMap hostWordsOf := by
  induction lines generalizing due ws with
  | nil =>
    cases due with
    | zero =>
      cases h
      exact ⟨[], [], rfl, nofun, rfl, rfl⟩
    | succ due => cases h
  | cons l lines ih =>
    obtain ⟨w, due', ws', taken, h', rfl⟩ := assembleFrom_cons_iff.1 h
    obtain ⟨cs, is, hlen, his, rfl, rfl⟩ := ih h'
    cases taken with
    | new pin =>
      obtain rfl := List.length_eq_zero_iff.1 hlen
      exact ⟨[], .new pin :: is, rfl, List.forall_mem_cons.2 ⟨⟨.inl ⟨pin, rfl⟩, rfl⟩, his⟩, rfl, rfl⟩
    | init pin =>
      obtain rfl := List.length_eq_zero_iff.1 hlen
      exact ⟨[], .init pin :: is, rfl, List.forall_mem_cons.2 ⟨⟨.inr (.inl ⟨pin, rfl⟩), rfl⟩, his⟩, rfl, rfl⟩
    | upload pin n hn =>
      subst hlen
      exact ⟨[], .upload pin cs :: is, rfl,
        List.forall_mem_cons.2 ⟨⟨.inr (.inr ⟨pin, cs, rfl⟩), wf_upload.2 hn⟩, his⟩, rfl, rfl⟩
    | color c => exact ⟨c :: cs, is, congrArg (· + 1) hlen, his, rfl, rfl⟩

/-- Settles O2: a host command decodes from its words, a micro-operation from its code. -/
theorem decodeOfEncodeIsInstruction : Obligations.DecodeOfEncodeIsInstruction := by
  intro i wf
  rcases isCommand_or_toInstr i with command | ⟨op, rfl⟩
  · rw [encode_of_isCommand command]
    exact ⟨fun ws hws rest => by cases hws; exact decode_hostWordsOf command wf rest, nofun⟩
  · rw [encode_toInstr]
    exact ⟨nofun, fun c hc => by cases hc; rw [decodeMicro_code]⟩

/-- Settles O3: the words of an accepted command are its encoding, and a code is that of its micro-operation. -/
theorem encodeOfDecodeIsWords : Obligations.EncodeOfDecodeIsWords := by
  refine ⟨fun ws i rest h => ?_, fun c => by rw [encode_toInstr, code_decodeMicro]⟩
  obtain ⟨wf, hws⟩ := eq_hostWordsOf_of_decode h
  have command : isCommand i := decode_command h
  refine ⟨wf, ?_, _, encode_of_isCommand command, hws⟩
  rw [hws, List.length_append, length_hostWordsOf command]

/-- Settles O4: fixed words, evaluated. -/
theorem specWordsDecode : Obligations.SpecWordsDecode := by
  unfold Obligations.SpecWordsDecode
  decide

/-- Settles O5: one lemma per row of R79, and the step's refusal of each rejection. -/
theorem decoderVerdicts : Obligations.DecoderVerdicts := by
  intro w ws opc pin cnt reservedIn
  have hr : reservedColour cnt ws = true ↔ reservedIn := reservedColour_iff cnt ws
  rw [← hr]
  refine ⟨?_, ?_, ?_, ?_, ?_, ?_, ?_, ?_, fun s hok hp hn hi => ?_⟩
  · exact fun ⟨h1, h2, h3⟩ => decode_reservedOpcode h1 h2 h3
  · exact fun ⟨ht, hc⟩ => decode_reservedCount ht hc
  · exact fun ⟨ht, _, hres⟩ => (decode_upload ht).trans (decodeUpload_reserved hres)
  · exact fun ⟨ht, hl, hres⟩ => (decode_upload ht).trans (decodeUpload_incomplete hres hl)
  · exact fun ⟨ht, _, hres⟩ => .inl ((decode_upload ht).trans (decodeUpload_reserved hres))
  · exact fun ⟨ht, hc⟩ => decode_new ht hc
  · exact fun ⟨ht, hc⟩ => decode_init ht hc
  · exact fun ⟨ht, hl, hres⟩ => (decode_upload ht).trans (decodeUpload_command hres hl)
  · rw [step_host hok hp hn]
    rw [List.map_cons] at hi
    exact ⟨fun k hd => hostStep_reserved hi (by rw [leadingWords_words, hd]),
      fun hd => hostStep_incomplete hi (by rw [leadingWords_words, hd])⟩

/-- Settles O6: no colour is due before the first line, so what is taken is the lines of the commands alone. -/
theorem assemblerAcceptsCommands : Obligations.AssemblerAcceptsCommands := by
  intro lines ws
  constructor
  · intro h
    obtain ⟨cs, is, hlen, his, hlines, hws⟩ := exists_commands_of_assembleFrom h
    obtain rfl := List.length_eq_zero_iff.1 hlen
    exact ⟨is, his, hlines, hws⟩
  · rintro ⟨is, his, rfl, rfl⟩
    exact assembleFrom_flatMap_asmLines his

end Sys2Proof.Claims

/-! PROOFS. The statements about the pulse primitives: what a pulse writes and when, what it leaves unchanged, and
that no run reaches one without a resource. -/

namespace Sys2Proof.Machine

/-! ### The two pulses (R101 to R105) -/

/-- With a resource, on a bank in canonical form, a pulse is its two writes and the bit period. -/
theorem State.withRes_pulse {s : State} {r : PinRes} (high : Nat) (hr : s.res = some r) (wf : Memory.wf s.port) :
    s.withRes (s.pulse high) = .next { s with
      port  := Memory.write s.port r.port (Memory.read s.port r.port &&& ~~~r.mask)
      trace := s.trace ++
        [⟨s.t, .block, .port, r.port, Memory.read s.port r.port ||| r.mask⟩,
         ⟨s.t + high, .block, .port, r.port, Memory.read s.port r.port &&& ~~~r.mask⟩]
      t     := s.t + s.launch.cfg.bitCyc
      next  := some .margin } := by
  rw [State.withRes_some _ hr, State.pulse_eq s high r wf]

/-- EMIT0 and EMIT1 are a pulse of some high time; what does not depend on it is said of both at once. -/
theorem exec_emit_next {s s' : State} {i : Instr} (hi : i = .emit0 ∨ i = .emit1) (h : exec i s = .next s') :
    ∃ high r, s.res = some r ∧ s' = s.pulse high r := by
  rcases hi with rfl | rfl
  · exact ⟨_, State.withRes_next ((exec_emit0 s).symm.trans h)⟩
  · exact ⟨_, State.withRes_next ((exec_emit1 s).symm.trans h)⟩

/-! ### No step of the host faults (R193) -/

theorem State.issue_ne_fault (s : State) (g : State → State) (f : Fault) : s.issue g ≠ .fault f := by
  unfold State.issue
  split
  · split <;> nofun
  · nofun

/-- A step of the host waits, writes, or issues a command; issuing is answered or refused. -/
theorem hostStep_ne_fault (s : State) (f : Fault) : hostStep s ≠ .fault f := by
  unfold hostStep
  split
  · nofun
  · nofun
  · nofun
  · split
    case h_1 i rest hd =>
      rcases decode_command hd with ⟨pin, rfl⟩ | ⟨pin, rfl⟩ | ⟨pin, cs, rfl⟩
      · rw [exec_new]
        exact State.issue_ne_fault _ _ f
      · rw [exec_init]
        exact State.issue_ne_fault _ _ f
      · rw [exec_upload]
        exact State.issue_ne_fault _ _ f
    · nofun
    · nofun

/-! ### A busy block always steps (R104, R193) -/

theorem adv_ci_le (p : Position) : (adv p).ci ≤ p.ci + 1 := by
  rcases adv_cases p with ⟨-, e⟩ | ⟨-, -, e⟩ | ⟨-, -, e⟩
  · exact e ▸ Nat.le_succ p.ci
  · exact e ▸ Nat.le_succ p.ci
  · exact e ▸ Nat.le_refl (p.ci + 1)

/-- At a position inside the buffer or at its end there is something to schedule (R52, R152). -/
theorem State.exists_schedule {s : State} (h : s.pos.ci ≤ s.buf.length) : ∃ s', s.schedule = .next s' := by
  rcases Nat.lt_or_eq_of_le h with inside | done
  · exact ⟨_, State.schedule_some (sched_bit inside)⟩
  · exact ⟨_, State.schedule_some (sched_done done)⟩

/-- Where a micro-operation uses `RES`, RESOLVE has set it (R104). -/
theorem State.Inv.exists_withRes {s : State} (h : s.Inv) (hp : s.phase = .configuring ∨ s.phase = .transmitting)
    (g : PinRes → State) : ∃ s', s.withRes g = .next s' := by
  have resolved : s.Resolved := by
    rcases hp with hp | hp
    · obtain ⟨-, -, resolved, -⟩ := (State.commandOk_configuring hp).1 h.command
      exact resolved
    · obtain ⟨-, -, resolved, -⟩ := (State.commandOk_transmitting hp).1 h.command
      exact resolved
  obtain ⟨r, hr⟩ := Option.isSome_iff_exists.1 resolved.1
  exact ⟨_, State.withRes_some g hr⟩

/-- RESOLVE always answers: an UPLOAD starts at the first colour or, without one, at the end of the buffer (R121). -/
theorem exists_exec_resolve (s : State) : ∃ s', exec .resolve s = .next s' := by
  cases hr : s.launch.cfg.resolve s.id with
  | none => exact ⟨_, exec_resolve_none hr⟩
  | some r =>
    cases hc : s.cmd with
    | new => exact ⟨_, exec_resolve_new hr hc⟩
    | init => exact ⟨_, exec_resolve_init hr hc⟩
    | upload =>
      rw [exec_resolve_upload hr hc]
      exact State.exists_schedule (Nat.zero_le _)

/-- The scheduled micro-operation finds its resource, and MARGIN its next bit or the end of the buffer. -/
theorem State.Inv.exists_exec {s : State} {op : MicroOp} (h : s.Inv) (hn : s.next = some op) :
    ∃ s', exec op.toInstr s = .next s' := by
  have pair : legalPair s.phase (some op) = true := hn ▸ h.pair
  cases op with
  | emit0 | emit1 => exact h.exists_withRes (.inr (phase_eq_phaseOf pair nofun)) _
  | dirset | drivelow => exact h.exists_withRes (.inl (phase_eq_phaseOf pair nofun)) _
  | margin =>
    obtain ⟨-, -, -, hci, -⟩ := (State.commandOk_transmitting (phase_eq_phaseOf pair nofun)).1 h.command
    exact State.exists_schedule (s := (s.takeOvh.takeDelay s.launch.cfg.marginUs).setPos (adv s.pos))
      (Nat.le_trans (adv_ci_le s.pos) hci)
  | resolve => exact exists_exec_resolve s
  | latch => exact ⟨_, exec_latch s⟩
  | ret => exact ⟨_, exec_ret s⟩

theorem State.Inv.exists_step {s : State} (h : s.Inv) (busy : s.phase ≠ .idle) : ∃ s', step s = .next s' := by
  cases hn : s.next with
  | none => exact absurd (legalPair_none.1 (hn ▸ h.pair)) busy
  | some op =>
    rw [step_micro h.cfgOk h.pair hn]
    exact h.exists_exec hn

theorem State.Inv.stepsWithoutFault {s : State} (h : s.Inv) : s.StepsWithoutFault := by
  intro f hf
  by_cases idle : s.phase = .idle
  · rw [step_host h.cfgOk idle (legalPair_idle.1 (idle ▸ h.pair))] at hf
    exact hostStep_ne_fault s f hf
  · obtain ⟨s', hs⟩ := h.exists_step idle
    cases hs.symm.trans hf

/-- The invariant goes along the run, and no state that meets it faults. -/
theorem State.Inv.run_ne_fault {s : State} (h : s.Inv) (k : Nat) (f : Fault) : run k s ≠ .fault f := by
  induction k generalizing s with
  | zero => nofun
  | succ k ih =>
    rw [run]
    cases hs : step s with
    | next s' => exact ih (step_inv h hs)
    | fault g => exact absurd hs (h.stepsWithoutFault g)
    | refused r => nofun

end Sys2Proof.Machine

namespace Sys2Proof.Claims
open Sys2Proof Sys2Proof.Machine

/-- Settles O14: the pulse of high time `T0H_CYC`, where there is a resource. -/
theorem emit0Pulse : Obligations.Emit0Pulse :=
  fun s => ⟨fun _ hr wf => (exec_emit0 s).trans (State.withRes_pulse _ hr wf),
    fun hr => (exec_emit0 s).trans (State.withRes_none _ hr)⟩

/-- Settles O15: the pulse of high time `T1H_CYC`, where there is a resource. -/
theorem emit1Pulse : Obligations.Emit1Pulse :=
  fun s => ⟨fun _ hr wf => (exec_emit1 s).trans (State.withRes_pulse _ hr wf),
    fun hr => (exec_emit1 s).trans (State.withRes_none _ hr)⟩

/-- Settles O16: both pulses are the setting and the clearing write, the high time standing only in the time of the
second. -/
theorem pulsePeriodSymmetry : Obligations.PulsePeriodSymmetry := by
  intro s r hr wf
  exact ⟨_, _, ⟨s.t, .block, .port, r.port, Memory.read s.port r.port ||| r.mask⟩,
    ⟨s.t, .block, .port, r.port, Memory.read s.port r.port &&& ~~~r.mask⟩,
    (emit0Pulse s).1 r hr wf, (emit1Pulse s).1 r hr wf, rfl, rfl, rfl, rfl, rfl, rfl, rfl,
    or_and_mask _ _, and_not_and_mask _ _⟩

/-- Settles O17: of the registers a pulse writes one, and of its other fields only time, trace and `NEXT`. -/
theorem pulseFrame : Obligations.PulseFrame := by
  intro s s' i hi wf h
  obtain ⟨high, r, hr, rfl⟩ := exec_emit_next hi h
  rw [State.pulse_eq s high r wf]
  exact ⟨r, hr, Memory.read_write_same _ _ wf, fun a ha => Memory.read_write_ne _ _ ha, fun _ => rfl,
    rfl, rfl, rfl, rfl, rfl, rfl, rfl, rfl, rfl, rfl, rfl⟩

/-- Settles O36: a good launch meets the invariant, and no run from a state that meets it faults. -/
theorem noRunFaults : Obligations.NoRunFaults :=
  fun _ script k f h => (h.inv script).run_ne_fault k f

end Sys2Proof.Claims

/-! PROOFS. The statements about the pixel transmitter: the host's moves, the issue of a command, the control
micro-operations, and the course of a whole command: failed, INIT, UPLOAD. -/

namespace Sys2Proof.Machine

/-! ### The host's moves, one by one (R126, R128) -/

theorem hostStep_wait {s : State} {d : Nat} {l : List HostItem} (hi : s.input = .wait d :: l) :
    hostStep s = .next ((s.setInput l).tick d) := by
  simp only [hostStep, hi]

theorem hostStep_write {s : State} {r : GpioReg} {a : Nat} {v : Byte} {l : List HostItem}
    (hi : s.input = .write r a v :: l) : hostStep s = .next ((s.setInput l).hostWrite r a v) := by
  simp only [hostStep, hi]

/-- A command stands at the head of the script, so the script begins with a word. -/
theorem hostStep_command {s : State} {i : Instr} {rest : List Word}
    (hd : decode (leadingWords s.input) = .command i rest) :
    hostStep s = exec i (s.setInput (s.input.drop i.wordCount)) := by
  cases hi : s.input with
  | nil =>
    rw [hi] at hd
    cases hd
  | cons item l =>
    rw [hi] at hd
    cases item with
    | word w =>
      rw [leadingWords] at hd
      simp only [hostStep, hi, hd]
    | wait d => cases hd
    | write r a v => cases hd

/-! ### The issue of a command (R126, R130) -/

theorem State.issue_busy {s : State} (f : State → State) (hp : s.phase ≠ .idle) :
    s.issue f = .refused .hostBlocked := by
  rw [State.issue, if_neg hp]

theorem State.issue_preemption {s : State} (f : State → State) (hp : s.phase = .idle)
    (hn : s.launch.nonPreemptive = false) : s.issue f = .refused .preemption := by
  rw [State.issue, if_pos hp, if_neg (by simp [hn])]

/-- Every host command is an issue, so what stops an issue stops all three. -/
theorem exec_command {i : Instr} (h : Claims.isCommand i) (s : State) : ∃ f, exec i s = s.issue f := by
  rcases h with ⟨pin, rfl⟩ | ⟨pin, rfl⟩ | ⟨pin, cs, rfl⟩
  · exact ⟨_, exec_new pin s⟩
  · exact ⟨_, exec_init pin s⟩
  · exact ⟨_, exec_upload pin cs s⟩

theorem State.issue_mayIssue {s : State} (h : Claims.MayIssue s) (f : State → State) : s.issue f = .next (f s) := by
  obtain ⟨-, hp, hn⟩ := h
  exact State.issue_idle f hp hn

theorem exec_new_issued {s : State} (h : Claims.MayIssue s) (pin : PinId) :
    exec (.new pin) s = .next (s.deliver (handleWord pin)) :=
  (exec_new pin s).trans (State.issue_mayIssue h _)

theorem exec_init_issued {s : State} (h : Claims.MayIssue s) (pin : PinId) :
    exec (.init pin) s = .next (s.start .init pin []) :=
  (exec_init pin s).trans (State.issue_mayIssue h _)

theorem exec_upload_issued {s : State} (h : Claims.MayIssue s) (pin : PinId) (cs : List Color) :
    exec (.upload pin cs) s = .next (s.start .upload pin cs) :=
  (exec_upload pin cs s).trans (State.issue_mayIssue h _)

/-! ### The result words (R77) -/

theorem handleWord_toNat (pin : PinId) : (handleWord pin).toNat = pin.toNat :=
  BitVec.toNat_setWidth_of_le (by decide)

theorem resultWord_eq (b : Bool) : resultWord b = if b = true then 0x00000001 else 0x00000000 := by
  cases b <;> rfl

/-! ### What `sched` chooses, as an update of the state (R152) -/

/-- The state with what `sched` chooses at its position scheduled. -/
def State.scheduled (s : State) : State :=
  s.goTo ((sched s.buf s.pos).elim s.phase (·.1)) ((sched s.buf s.pos).map (·.2))

theorem State.scheduled_eq {s : State} {p : Phase} {op : MicroOp} (h : sched s.buf s.pos = some (p, op)) :
    s.scheduled = s.goTo p (some op) := by
  rw [State.scheduled, h]
  rfl

theorem exists_sched {buf : List Color} {p : Position} (h : p.ci ≤ buf.length) :
    ∃ ph op, sched buf p = some (ph, op) := by
  rcases Nat.lt_or_eq_of_le h with inside | done
  · exact ⟨_, _, sched_bit inside⟩
  · exact ⟨_, _, sched_done done⟩

/-- Up to the end of the buffer scheduling does not fault (R52). -/
theorem State.schedule_inside {s : State} (h : s.pos.ci ≤ s.buf.length) : s.schedule = .next s.scheduled := by
  obtain ⟨p, op, hs⟩ := exists_sched h
  rw [State.schedule_some hs, State.scheduled_eq hs]

/-! ### Whole commands: the micro-operations from one state to another -/

/-- `Steps s ops s'`: from `s` the block runs exactly the micro-operations `ops`, in order, and reaches `s'`. -/
inductive Steps : State → List MicroOp → State → Prop where
  | nil (s : State) : Steps s [] s
  | cons {s t u : State} {op : MicroOp} {ops : List MicroOp} (hn : s.next = some op) (hs : step s = .next t)
      (rest : Steps t ops u) : Steps s (op :: ops) u

theorem Steps.append {s t u : State} {ops ops' : List MicroOp} (h : Steps s ops t) (h' : Steps t ops' u) :
    Steps s (ops ++ ops') u := by
  induction h with
  | nil => exact h'
  | cons hn hs _ ih => exact .cons hn hs (ih h')

theorem Steps.run_eq {s s' : State} {ops : List MicroOp} (h : Steps s ops s') : run ops.length s = .next s' := by
  induction h with
  | nil => rfl
  | cons _ hs _ ih => exact (run_of_step hs).trans ih

theorem Steps.opsRun_eq {s s' : State} {ops : List MicroOp} (h : Steps s ops s') :
    Claims.opsRun ops.length s = ops := by
  induction h with
  | nil => rfl
  | cons hn hs _ ih => simp only [List.length_cons, Claims.opsRun, hn, hs, ih]

/-! ### A failed command (R129, R180) -/

/-- A command whose identifier has not resolved, before RETURN. -/
def State.failed (s : State) (c : Command) (pin : PinId) (cs : List Color) : State :=
  ((s.start c pin cs).takeOvh.setRes none).raiseInvalidDeviceIdentifier

theorem step_start_none {s : State} {pin : PinId} (ok : s.launch.cfg.ok = true)
    (hr : s.launch.cfg.resolve pin = none) (c : Command) (cs : List Color) :
    step (s.start c pin cs) = .next (s.failed c pin cs) :=
  (step_resolve (s := s.start c pin cs) ok rfl rfl).trans (exec_resolve_none hr)

theorem step_failed {s : State} (ok : s.launch.cfg.ok = true) (c : Command) (pin : PinId) (cs : List Color) :
    step (s.failed c pin cs) = .next (s.failed c pin cs).takeOvh.finish :=
  step_ret (s := s.failed c pin cs) ok rfl rfl

theorem steps_start_none {s : State} {pin : PinId} (ok : s.launch.cfg.ok = true)
    (hr : s.launch.cfg.resolve pin = none) (c : Command) (cs : List Color) :
    Steps (s.start c pin cs) [.resolve, .ret] (s.failed c pin cs).takeOvh.finish :=
  .cons rfl (step_start_none ok hr c cs) <| .cons rfl (step_failed ok c pin cs) <| .nil _

/-! ### A successful INIT (R122, R131) -/

/-- An INIT that has resolved its pin, before DIRSET. -/
def State.initResolved (s : State) (pin : PinId) (r : PinRes) : State :=
  (((s.start .init pin []).takeOvh.setRes (some r)).setResult true).goTo .configuring (some .dirset)

/-- An INIT whose pin is an output, before DRIVELOW. -/
def State.initOutput (s : State) (pin : PinId) (r : PinRes) : State :=
  ((s.initResolved pin r).takeOvh.dirSet r.port r.mask).goNext .drivelow

/-- An INIT whose pin is driven low, before RETURN. -/
def State.initLow (s : State) (pin : PinId) (r : PinRes) : State :=
  ((s.initOutput pin r).takeOvh.portClr r.port r.mask).goNext .ret

theorem steps_start_init {s : State} {pin : PinId} {r : PinRes} (ok : s.launch.cfg.ok = true)
    (hr : s.launch.cfg.resolve pin = some r) :
    Steps (s.start .init pin []) [.resolve, .dirset, .drivelow, .ret] (s.initLow pin r).takeOvh.finish := by
  have resolve : step (s.start .init pin []) = .next (s.initResolved pin r) :=
    (step_resolve (s := s.start .init pin []) ok rfl rfl).trans (exec_resolve_init hr rfl)
  have dirset : step (s.initResolved pin r) = .next (s.initOutput pin r) :=
    step_dirset (s := s.initResolved pin r) ok rfl rfl rfl
  have drivelow : step (s.initOutput pin r) = .next (s.initLow pin r) :=
    step_drivelow (s := s.initOutput pin r) ok rfl rfl rfl
  have ret : step (s.initLow pin r) = .next (s.initLow pin r).takeOvh.finish :=
    step_ret (s := s.initLow pin r) ok rfl rfl
  exact .cons rfl resolve <| .cons rfl dirset <| .cons rfl drivelow <| .cons rfl ret <| .nil _

/-- INIT makes two pin writes, the direction bit and the port bit, each after its overhead. -/
theorem State.initLow_trace (s : State) (pin : PinId) (r : PinRes) :
    (s.initLow pin r).trace = s.trace ++
      [⟨(s.initOutput pin r).t, .block, .dir, r.port, Memory.read s.dir r.port ||| r.mask⟩,
       ⟨(s.initLow pin r).t, .block, .port, r.port, Memory.read s.port r.port &&& ~~~r.mask⟩] :=
  List.append_assoc ..

theorem TraceOk.initLow {s : State} (c : TraceOk s) (pin : PinId) (r : PinRes) : TraceOk (s.initLow pin r) := by
  have resolved : TraceOk (s.initResolved pin r) := c.of_eq rfl rfl rfl rfl (Nat.le_add_right s.t _)
  have output : TraceOk (s.initOutput pin r) :=
    (resolved.takeOvh.writeDir ..).of_eq rfl rfl rfl rfl (Nat.le_refl _)
  exact (output.takeOvh.writePort ..).of_eq rfl rfl rfl rfl (Nat.le_refl _)

/-- Once every event is past, the line is what the registers say (R37). -/
theorem TraceOk.line_eq {s : State} (c : TraceOk s) {x : Nat} (hx : s.t ≤ x) (a : Nat) (m : Byte) :
    s.line a m x =
      if Memory.read s.dir a &&& m = 0 then .undriven
      else if Memory.read s.port a &&& m = 0 then .low
      else .high := by
  have past : ∀ e ∈ s.trace, e.time ≤ x := fun e he => Nat.le_trans (c.tracePast e he) hx
  rw [State.line, regAt_replay a x c.launchDirWf past, regAt_replay a x c.launchPortWf past, ← c.dirTraced,
    ← c.portTraced]

theorem State.initLow_dir {s : State} (wf : Memory.wf s.dir) (pin : PinId) (r : PinRes) :
    Memory.read (s.initLow pin r).dir r.port &&& r.mask = r.mask :=
  (congrArg (· &&& r.mask) (Memory.read_write_same _ _ wf)).trans (or_and_mask _ _)

theorem State.initLow_port {s : State} (wf : Memory.wf s.port) (pin : PinId) (r : PinRes) :
    Memory.read (s.initLow pin r).port r.port &&& r.mask = 0 :=
  (congrArg (· &&& r.mask) (Memory.read_write_same _ _ wf)).trans (and_not_and_mask _ _)

/-- RETURN writes no register, so the line stays as DRIVELOW left it. -/
theorem State.initLow_line {s : State} (c : TraceOk s) {pin : PinId} {r : PinRes}
    (hr : s.launch.cfg.resolve pin = some r) {x : Nat} (hx : (s.initLow pin r).t ≤ x) :
    (s.initLow pin r).takeOvh.finish.line r.port r.mask x = .low := by
  have mask : r.mask ≠ 0 := mask_ne_zero (Config.resolve_popcount c.cfgOk hr)
  refine ((c.initLow pin r).line_eq hx r.port r.mask).trans ?_
  rw [State.initLow_dir c.dirWf, State.initLow_port c.portWf, if_neg mask, if_pos rfl]

/-! ### The bits of a frame and the position (R151, R155) -/

/-- The index in the frame of the bit at a position, in wire order (R151). -/
def Position.index (p : Position) : Nat := 24 * p.ci + 8 * p.bi + (7 - p.ki)

theorem adv_index (p : Position) : (adv p).index = p.index + 1 := by
  have ki_pred : ∀ k : Fin 8, 0 < k → ((k - 1 : Fin 8) : Nat) + 1 = k := by decide
  have bi_succ : ∀ j : Fin 3, j < 2 → ((j + 1 : Fin 3) : Nat) = j + 1 := by decide
  unfold Position.index
  rcases adv_cases p with ⟨hk, e⟩ | ⟨hk, hj, e⟩ | ⟨hk, hj, e⟩
  · have := ki_pred p.ki hk
    rw [e]
    show 24 * p.ci + 8 * (p.bi : Nat) + (7 - ((p.ki - 1 : Fin 8) : Nat)) = _
    omega
  · have := bi_succ p.bi hj
    rw [e, hk]
    show 24 * p.ci + 8 * ((p.bi + 1 : Fin 3) : Nat) + (7 - 7) = 24 * p.ci + 8 * (p.bi : Nat) + (7 - 0) + 1
    omega
  · rw [e, hk, hj]
    show 24 * (p.ci + 1) + 8 * 0 + (7 - 7) = 24 * p.ci + 8 * 2 + (7 - 0) + 1
    omega

/-- The wire-byte and bit indices of a colour's bits, in wire order. -/
def bitPositions : List (Fin 3 × Fin 8) := [0, 1, 2].flatMap fun j => bitOrder.map fun k => (j, k)

theorem bitPositions_getElem? : ∀ (j : Fin 3) (k : Fin 8), bitPositions[8 * (j : Nat) + (7 - k)]? = some (j, k) := by
  decide

theorem colourBits_eq (c : Color) : colourBits c = bitPositions.map fun p => wireBit c p.1 p.2 := rfl

theorem wireBits_length (buf : List Color) : (wireBits buf).length = 24 * buf.length := by
  induction buf with
  | nil => rfl
  | cons c cs ih =>
    rw [wireBits_cons, List.length_append, colourBits_length, ih, List.length_cons]
    omega

/-- Colour `i` has the 24 bits of a frame from `24 i` on. -/
theorem wireBits_getElem? {buf : List Color} {i m : Nat} (hi : i < buf.length) (hm : m < 24) :
    (wireBits buf)[24 * i + m]? = (colourBits buf[i])[m]? := by
  induction buf generalizing i with
  | nil => cases hi
  | cons c cs ih =>
    cases i with
    | zero =>
      rw [wireBits_cons, List.getElem?_append_left (by rw [colourBits_length]; omega), Nat.mul_zero, Nat.zero_add,
        List.getElem_cons_zero]
    | succ i =>
      rw [wireBits_cons, List.getElem?_append_right (by rw [colourBits_length]; omega), colourBits_length,
        show 24 * (i + 1) + m - 24 = 24 * i + m by omega, ih (Nat.lt_of_succ_lt_succ hi), List.getElem_cons_succ]

theorem wireBits_getElem?_index {buf : List Color} {p : Position} (h : p.ci < buf.length) :
    (wireBits buf)[p.index]? = some (wireBit buf[p.ci] p.bi p.ki) := by
  rw [Position.index, Nat.add_assoc, wireBits_getElem? h (by omega), colourBits_eq, List.getElem?_map,
    bitPositions_getElem?]
  rfl

/-- The bits still to send from a position (R157). -/
def bitsFrom (buf : List Color) (p : Position) : List Bool := (wireBits buf).drop p.index

theorem bitsFrom_start (buf : List Color) : bitsFrom buf Position.start = wireBits buf := rfl

theorem bitsFrom_inside {buf : List Color} {p : Position} (h : p.ci < buf.length) :
    bitsFrom buf p = wireBit buf[p.ci] p.bi p.ki :: bitsFrom buf (adv p) := by
  obtain ⟨hlt, e⟩ := List.getElem?_eq_some_iff.1 (wireBits_getElem?_index h)
  rw [bitsFrom, List.drop_eq_getElem_cons hlt, e, bitsFrom, adv_index]

theorem bitsFrom_done {buf : List Color} {p : Position} (h : p.ci = buf.length) : bitsFrom buf p = [] := by
  rw [bitsFrom, List.drop_eq_nil_iff, wireBits_length, Position.index]
  omega

/-! ### The writes of a frame (R132) -/

theorem and_not_or (v m : Byte) : (v &&& ~~~m) ||| m = v ||| m := by
  apply BitVec.eq_of_getLsbD_eq
  intro i hi
  simp only [BitVec.getLsbD_and, BitVec.getLsbD_or, BitVec.getLsbD_not]
  cases v.getLsbD i <;> cases m.getLsbD i <;> simp [hi]

/-- The writes of a pulse do not depend on the pin's own bit before it. -/
theorem frameEvents_cleared (c : Config) (r : PinRes) (v : Byte) (start : Nat → Nat) (w : List Bool) :
    Claims.frameEvents c r (v &&& ~~~r.mask) start w = Claims.frameEvents c r v start w := by
  simp only [Claims.frameEvents, Claims.pulseEvents, and_not_or, and_not_and_not]

theorem frameEvents_cons (c : Config) (r : PinRes) (v : Byte) (start : Nat → Nat) (b : Bool) (w : List Bool) :
    Claims.frameEvents c r v start (b :: w) =
      Claims.pulseEvents c r v (start 0) b ++ Claims.frameEvents c r v (fun j => start (j + 1)) w := by
  rw [Claims.frameEvents, List.zipIdx_cons, List.flatMap_cons, List.zipIdx_succ, List.flatMap_map]
  rfl

theorem frameEvents_length (c : Config) (r : PinRes) (v : Byte) (start : Nat → Nat) (w : List Bool) :
    (Claims.frameEvents c r v start w).length = 2 * w.length := by
  induction w generalizing start with
  | nil => rfl
  | cons b w ih =>
    rw [frameEvents_cons, List.length_append, ih, List.length_cons, Claims.pulseEvents, List.length_cons,
      List.length_singleton]
    omega

/-! ### Sending a frame (R123, R153, R157) -/

/-- The state after the pulse of bit `b` and its MARGIN. -/
def State.sendBit (r : PinRes) (s : State) (b : Bool) : State :=
  State.scheduled { s with
    t     := s.t + s.launch.cfg.bitCyc + s.launch.cfg.ovhDraw s.draws +
      s.launch.cfg.delayDraw s.launch.cfg.marginUs (s.draws + 1)
    draws := s.draws + 2
    port  := Memory.write s.port r.port (Memory.read s.port r.port &&& ~~~r.mask)
    trace := s.trace ++ Claims.pulseEvents s.launch.cfg r (Memory.read s.port r.port) s.t b
    pos   := adv s.pos }

/-- The state after the pulses and the margins of `bits`. -/
def State.sent (r : PinRes) (s : State) (bits : List Bool) : State := bits.foldl (State.sendBit r) s

/-- The micro-operations that send `bits`. -/
def frameOps (bits : List Bool) : List MicroOp := bits.flatMap fun b => [emitOf b, .margin]

/-- The block has `bits` left to send on pin `r`, and what `sched` chooses at its position is scheduled. -/
structure Sending (r : PinRes) (bits : List Bool) (s : State) : Prop where
  cfgOk : s.launch.cfg.ok = true
  res : s.res = some r
  portWf : Memory.wf s.port
  inside : s.pos.ci ≤ s.buf.length
  scheduled : sched s.buf s.pos = s.next.map (s.phase, ·)
  bits : bitsFrom s.buf s.pos = bits

theorem State.sched_scheduled (s : State) :
    sched s.scheduled.buf s.scheduled.pos = s.scheduled.next.map (s.scheduled.phase, ·) := by
  show sched s.buf s.pos = _
  cases hs : sched s.buf s.pos with
  | none => simp [State.scheduled, hs]
  | some q => simp [State.scheduled, hs]

/-- What is scheduled is what `sched` chose. -/
theorem Sending.phase_next {r : PinRes} {bits : List Bool} {s : State} {p : Phase} {op : MicroOp}
    (h : Sending r bits s) (hs : sched s.buf s.pos = some (p, op)) : s.phase = p ∧ s.next = some op := by
  obtain ⟨op', hn, e⟩ := Option.map_eq_some_iff.1 (h.scheduled.symm.trans hs)
  cases e
  exact ⟨rfl, hn⟩

theorem Sending.done {r : PinRes} {s : State} (h : Sending r [] s) : s.phase = .latching ∧ s.next = some .latch := by
  rcases Nat.lt_or_eq_of_le h.inside with inside | done
  · cases (bitsFrom_inside inside).symm.trans h.bits
  · exact h.phase_next (sched_done done)

theorem Sending.bit {r : PinRes} {b : Bool} {bits : List Bool} {s : State} (h : Sending r (b :: bits) s) :
    s.pos.ci < s.buf.length ∧ s.phase = .transmitting ∧ s.next = some (emitOf b) ∧
      bitsFrom s.buf (adv s.pos) = bits := by
  rcases Nat.lt_or_eq_of_le h.inside with inside | done
  · obtain ⟨rfl, rest⟩ := List.cons.inj ((bitsFrom_inside inside).symm.trans h.bits)
    obtain ⟨hp, hn⟩ := h.phase_next (sched_bit inside)
    exact ⟨inside, hp, hn, rest⟩
  · cases (bitsFrom_done done).symm.trans h.bits

theorem step_margin_inside {s : State} (hc : s.launch.cfg.ok = true) (hp : s.phase = .transmitting)
    (hn : s.next = some .margin) (h : (adv s.pos).ci ≤ s.buf.length) :
    step s = .next ((s.takeOvh.takeDelay s.launch.cfg.marginUs).setPos (adv s.pos)).scheduled := by
  obtain ⟨p, op, hs⟩ := exists_sched h
  rw [step_margin hc hp hn hs]
  exact congrArg _ (State.scheduled_eq hs).symm

/-- One bit: its pulse, its MARGIN, and the rest of the frame is left. -/
theorem Sending.sendBit {r : PinRes} {b : Bool} {bits : List Bool} {s : State} (h : Sending r (b :: bits) s) :
    Steps s [emitOf b, .margin] (s.sendBit r b) ∧ Sending r bits (s.sendBit r b) := by
  obtain ⟨inside, hp, hn, rest⟩ := h.bit
  have next_inside : (adv s.pos).ci ≤ s.buf.length := Nat.le_trans (adv_ci_le s.pos) inside
  have emit := step_emit h.cfgOk hp hn h.res
  have margin := step_margin_inside (s := s.pulse (if b then s.launch.cfg.t1hCyc else s.launch.cfg.t0hCyc) r)
    h.cfgOk hp rfl next_inside
  rw [State.pulse_eq s _ r h.portWf] at emit margin
  exact ⟨.cons hn emit <| .cons rfl margin <| .nil _,
    h.cfgOk, h.res, Memory.write_wf _ _ h.portWf, next_inside, State.sched_scheduled _, rest⟩

theorem Sending.sent {r : PinRes} {bits : List Bool} {s : State} (h : Sending r bits s) :
    Steps s (frameOps bits) (s.sent r bits) ∧ Sending r [] (s.sent r bits) := by
  induction bits generalizing s with
  | nil => exact ⟨.nil s, h⟩
  | cons b bits ih =>
    obtain ⟨steps, sending⟩ := h.sendBit
    obtain ⟨steps', sent⟩ := ih sending
    exact ⟨steps.append steps', sent⟩

/-! ### What sending leaves unchanged, and what it writes -/

/-- A field that no bit changes, no frame changes. -/
theorem State.sent_field {α : Type} (f : State → α) (r : PinRes) (hf : ∀ s b, f (s.sendBit r b) = f s) (s : State)
    (bits : List Bool) : f (s.sent r bits) = f s := by
  induction bits generalizing s with
  | nil => rfl
  | cons b bits ih => exact (ih _).trans (hf s b)

section
variable (r : PinRes) (s : State) (bits : List Bool)

@[simp] theorem State.sent_launch : (s.sent r bits).launch = s.launch := State.sent_field _ r (fun _ _ => rfl) s bits
@[simp] theorem State.sent_result : (s.sent r bits).result = s.result := State.sent_field _ r (fun _ _ => rfl) s bits
@[simp] theorem State.sent_dir : (s.sent r bits).dir = s.dir := State.sent_field _ r (fun _ _ => rfl) s bits
@[simp] theorem State.sent_input : (s.sent r bits).input = s.input := State.sent_field _ r (fun _ _ => rfl) s bits
@[simp] theorem State.sent_results : (s.sent r bits).results = s.results :=
  State.sent_field _ r (fun _ _ => rfl) s bits

/-- The cycle pulse `j` of the frame starts; past the last pulse, the cycle sending ends (R132). -/
def State.pulseStart (j : Nat) : Nat := (s.sent r (bits.take j)).t

theorem State.pulseStart_end : s.pulseStart r bits bits.length = (s.sent r bits).t := by
  rw [State.pulseStart, List.take_length]

theorem State.pulseStart_succ {j : Nat} (hj : j < bits.length) :
    ∃ k, s.pulseStart r bits (j + 1) = s.pulseStart r bits j + s.launch.cfg.bitCyc + s.launch.cfg.ovhDraw k +
      s.launch.cfg.delayDraw s.launch.cfg.marginUs (k + 1) := by
  refine ⟨(s.sent r (bits.take j)).draws, ?_⟩
  rw [State.pulseStart, List.take_succ_eq_append_getElem hj, State.sent, List.foldl_append, List.foldl_cons,
    List.foldl_nil, ← State.sent_launch r s (bits.take j)]
  rfl

end

theorem State.sent_port {r : PinRes} {s : State} (wf : Memory.wf s.port) (bits : List Bool) :
    (s.sent r bits).port =
      if bits = [] then s.port else Memory.write s.port r.port (Memory.read s.port r.port &&& ~~~r.mask) := by
  induction bits generalizing s with
  | nil => rfl
  | cons b bits ih =>
    have first : (s.sendBit r b).port = Memory.write s.port r.port (Memory.read s.port r.port &&& ~~~r.mask) := rfl
    have tail := ih (s := s.sendBit r b) (Memory.write_wf _ _ wf)
    rw [first, Memory.read_write_same _ _ wf, and_not_and_not, Memory.write_write _ _ _ wf, ite_self] at tail
    exact tail

theorem State.sent_trace {r : PinRes} {s : State} (wf : Memory.wf s.port) (bits : List Bool) :
    (s.sent r bits).trace = s.trace ++
      Claims.frameEvents s.launch.cfg r (Memory.read s.port r.port) (s.pulseStart r bits) bits := by
  induction bits generalizing s with
  | nil => exact (List.append_nil _).symm
  | cons b bits ih =>
    have cleared : Memory.read (s.sendBit r b).port r.port = Memory.read s.port r.port &&& ~~~r.mask :=
      Memory.read_write_same _ _ wf
    have tail := ih (s := s.sendBit r b) (Memory.write_wf _ _ wf)
    rw [cleared, frameEvents_cleared] at tail
    rw [frameEvents_cons, ← List.append_assoc]
    exact tail

/-! ### LATCH and RETURN (R127, R154) -/

/-- The state after LATCH. -/
def State.latched (s : State) : State :=
  { s with
    t     := s.t + s.launch.cfg.ovhDraw s.draws + s.launch.cfg.delayDraw s.launch.cfg.latchUs (s.draws + 1)
    draws := s.draws + 2
    next  := some .ret }

/-- The state after LATCH and RETURN. -/
def State.latchAndReturn (s : State) : State := s.latched.takeOvh.finish

theorem steps_latchAndReturn {s : State} (ok : s.launch.cfg.ok = true) (hp : s.phase = .latching)
    (hn : s.next = some .latch) : Steps s [.latch, .ret] s.latchAndReturn := by
  have latch : step s = .next s.latched := step_latch ok hp hn
  have pair : legalPair s.latched.phase (some .ret) = true := congrArg (legalPair · (some .ret)) hp
  exact .cons hn latch <| .cons rfl (step_ret (s := s.latched) ok pair rfl) <| .nil _

section
variable (s : State)

@[simp] theorem State.latchAndReturn_phase : s.latchAndReturn.phase = .idle := rfl
@[simp] theorem State.latchAndReturn_res : s.latchAndReturn.res = none := rfl
@[simp] theorem State.latchAndReturn_result : s.latchAndReturn.result = s.result := rfl
@[simp] theorem State.latchAndReturn_port : s.latchAndReturn.port = s.port := rfl
@[simp] theorem State.latchAndReturn_dir : s.latchAndReturn.dir = s.dir := rfl
@[simp] theorem State.latchAndReturn_trace : s.latchAndReturn.trace = s.trace := rfl
@[simp] theorem State.latchAndReturn_launch : s.latchAndReturn.launch = s.launch := rfl
@[simp] theorem State.latchAndReturn_input : s.latchAndReturn.input = s.input := rfl
@[simp] theorem State.latchAndReturn_results :
    s.latchAndReturn.results = s.results ++ [⟨s.latchAndReturn.t, resultWord s.result⟩] := rfl

theorem State.latchAndReturn_t : s.latchAndReturn.t =
    s.t + s.launch.cfg.ovhDraw s.draws + s.launch.cfg.delayDraw s.launch.cfg.latchUs (s.draws + 1) +
      s.launch.cfg.ovhDraw (s.draws + 2) := rfl

end

/-! ### A successful UPLOAD (R123, R132) -/

/-- An UPLOAD that has resolved its pin, before the first bit or, without one, before LATCH. -/
def State.uploadResolved (s : State) (pin : PinId) (cs : List Color) (r : PinRes) : State :=
  ((((s.start .upload pin cs).takeOvh.setRes (some r)).setResult true).setPos Position.start).scheduled

/-- An UPLOAD that has sent its frame, before LATCH. -/
def State.uploadSent (s : State) (pin : PinId) (cs : List Color) (r : PinRes) : State :=
  (s.uploadResolved pin cs r).sent r (wireBits cs)

/-- An UPLOAD that has returned. -/
def State.uploaded (s : State) (pin : PinId) (cs : List Color) (r : PinRes) : State :=
  (s.uploadSent pin cs r).latchAndReturn

/-- The cycle pulse `j` of an UPLOAD starts, and past the last one the cycle its latch begins (R132). -/
def State.uploadStart (s : State) (pin : PinId) (cs : List Color) (r : PinRes) : Nat → Nat :=
  (s.uploadResolved pin cs r).pulseStart r (wireBits cs)

/-- The micro-operations of a successful UPLOAD. -/
def uploadOps (cs : List Color) : List MicroOp := .resolve :: frameOps (wireBits cs) ++ [.latch, .ret]

theorem frameOps_length (bits : List Bool) : (frameOps bits).length = 2 * bits.length := by
  induction bits with
  | nil => rfl
  | cons b bits ih =>
    rw [frameOps, List.flatMap_cons, List.length_append, ← frameOps, ih, List.length_cons]
    simp only [List.length_cons, List.length_nil]
    omega

theorem uploadOps_length (cs : List Color) : (uploadOps cs).length = Claims.uploadSteps cs.length := by
  rw [uploadOps, List.length_append, List.length_cons, frameOps_length, wireBits_length, Claims.uploadSteps]
  simp only [List.length_cons, List.length_nil]
  omega

section
variable {s : State} {pin : PinId} {cs : List Color} {r : PinRes}

theorem step_start_upload (ok : s.launch.cfg.ok = true) (hr : s.launch.cfg.resolve pin = some r) :
    step (s.start .upload pin cs) = .next (s.uploadResolved pin cs r) :=
  (step_resolve (s := s.start .upload pin cs) ok rfl rfl).trans <|
    (exec_resolve_upload hr rfl).trans (State.schedule_inside (Nat.zero_le _))

theorem sending_uploadResolved (ok : s.launch.cfg.ok = true) (wf : Memory.wf s.port) :
    Sending r (wireBits cs) (s.uploadResolved pin cs r) :=
  ⟨ok, rfl, wf, Nat.zero_le _, State.sched_scheduled _, bitsFrom_start cs⟩

theorem steps_start_upload (ok : s.launch.cfg.ok = true) (wf : Memory.wf s.port)
    (hr : s.launch.cfg.resolve pin = some r) :
    Steps (s.start .upload pin cs) (uploadOps cs) (s.uploaded pin cs r) := by
  obtain ⟨frame, sent⟩ := (sending_uploadResolved (pin := pin) (cs := cs) (r := r) ok wf).sent
  obtain ⟨hp, hn⟩ := sent.done
  exact .cons rfl (step_start_upload ok hr) (frame.append (steps_latchAndReturn sent.cfgOk hp hn))

theorem run_start_upload (ok : s.launch.cfg.ok = true) (wf : Memory.wf s.port)
    (hr : s.launch.cfg.resolve pin = some r) :
    run (Claims.uploadSteps cs.length) (s.start .upload pin cs) = .next (s.uploaded pin cs r) := by
  rw [← uploadOps_length]
  exact (steps_start_upload ok wf hr).run_eq

end

/-! ### What a successful UPLOAD leaves, field by field (R132, R133) -/

section
variable (s : State) (pin : PinId) (cs : List Color) (r : PinRes)

theorem State.uploadSent_launch : (s.uploadSent pin cs r).launch = s.launch :=
  State.sent_launch r (s.uploadResolved pin cs r) (wireBits cs)

theorem State.uploadSent_result : (s.uploadSent pin cs r).result = true :=
  State.sent_result r (s.uploadResolved pin cs r) (wireBits cs)

theorem State.uploadSent_results : (s.uploadSent pin cs r).results = s.results :=
  State.sent_results r (s.uploadResolved pin cs r) (wireBits cs)

theorem State.uploadSent_t : (s.uploadSent pin cs r).t = s.uploadStart pin cs r (24 * cs.length) := by
  rw [← wireBits_length]
  exact (State.pulseStart_end r (s.uploadResolved pin cs r) (wireBits cs)).symm

theorem State.uploaded_launch : (s.uploaded pin cs r).launch = s.launch := by
  rw [State.uploaded, State.latchAndReturn_launch, State.uploadSent_launch]

theorem State.uploaded_result : (s.uploaded pin cs r).result = true := by
  rw [State.uploaded, State.latchAndReturn_result, State.uploadSent_result]

theorem State.uploaded_dir : (s.uploaded pin cs r).dir = s.dir := by
  rw [State.uploaded, State.latchAndReturn_dir]
  exact State.sent_dir r (s.uploadResolved pin cs r) (wireBits cs)

theorem State.uploaded_input : (s.uploaded pin cs r).input = s.input := by
  rw [State.uploaded, State.latchAndReturn_input]
  exact State.sent_input r (s.uploadResolved pin cs r) (wireBits cs)

theorem State.uploaded_results : (s.uploaded pin cs r).results = s.results ++ [⟨(s.uploaded pin cs r).t, 1⟩] := by
  rw [State.uploaded, State.latchAndReturn_results, State.uploadSent_results, State.uploadSent_result]
  rfl

/-- After the frame come the two draws of LATCH and the one of RETURN. -/
theorem State.uploaded_t : ∃ k, (s.uploaded pin cs r).t =
    s.uploadStart pin cs r (24 * cs.length) + s.launch.cfg.ovhDraw k +
      s.launch.cfg.delayDraw s.launch.cfg.latchUs (k + 1) + s.launch.cfg.ovhDraw (k + 2) := by
  refine ⟨(s.uploadSent pin cs r).draws, ?_⟩
  rw [State.uploaded, State.latchAndReturn_t, State.uploadSent_t, State.uploadSent_launch]

theorem wireBits_eq_nil {cs : List Color} : wireBits cs = [] ↔ cs = [] := by
  rw [← List.length_eq_zero_iff, wireBits_length, ← List.length_eq_zero_iff]
  omega

theorem State.uploaded_port (wf : Memory.wf s.port) : (s.uploaded pin cs r).port =
    if cs = [] then s.port else Memory.write s.port r.port (Memory.read s.port r.port &&& ~~~r.mask) := by
  rw [State.uploaded, State.latchAndReturn_port]
  simp only [← wireBits_eq_nil]
  exact State.sent_port (s := s.uploadResolved pin cs r) wf (wireBits cs)

theorem State.uploaded_trace (wf : Memory.wf s.port) : (s.uploaded pin cs r).trace = s.trace ++
    Claims.frameEvents s.launch.cfg r (Memory.read s.port r.port) (s.uploadStart pin cs r) (wireBits cs) := by
  rw [State.uploaded, State.latchAndReturn_trace]
  exact State.sent_trace (s := s.uploadResolved pin cs r) wf (wireBits cs)

theorem State.frameStarts_uploadStart (ok : s.launch.cfg.ok = true) :
    Claims.FrameStarts s.launch.cfg s.t (24 * cs.length) (s.uploadStart pin cs r) := by
  refine ⟨⟨_, Config.ovhDraw_bounds ok s.draws, rfl⟩, fun j hj => ?_⟩
  rw [← wireBits_length] at hj
  obtain ⟨k, next⟩ := State.pulseStart_succ r (s.uploadResolved pin cs r) (wireBits cs) hj
  exact ⟨_, _, Config.ovhDraw_bounds ok k, Config.delayDraw_bounds _ _ (k + 1), next⟩

end

end Sys2Proof.Machine

namespace Sys2Proof.Claims
open Sys2Proof Sys2Proof.Machine

/-- Settles O9: each item of the script is one move; a written register is read back, the others as before. -/
theorem hostMovesWhileIdle : Obligations.HostMovesWhileIdle := by
  intro s l ok hp hn
  have host := step_host ok hp hn
  refine ⟨fun d hi => ?_, fun a v hi wf => ?_, fun a v hi wf => ?_⟩
  · exact host.trans (hostStep_wait hi)
  · exact ⟨_, host.trans (hostStep_write hi), fun b => Memory.read_write a b v wf⟩
  · exact ⟨_, host.trans (hostStep_write hi), fun b => Memory.read_write a b v wf⟩

/-- Settles O40: RESOLVE raises the error, RETURN delivers the cleared flag, and neither writes a register. -/
theorem failedCommandWritesNoPin : Obligations.FailedCommandWritesNoPin := by
  intro s pin i hi may hr
  obtain ⟨c, cs, issue⟩ : ∃ c cs, exec i s = .next (s.start c pin cs) := by
    rcases hi with rfl | ⟨cs, rfl⟩
    · exact ⟨_, _, exec_init_issued may pin⟩
    · exact ⟨_, _, exec_upload_issued may pin cs⟩
  obtain ⟨ok, -⟩ := may
  exact ⟨_, _, _, _, _, Config.ovhDraw_bounds ok _, Config.ovhDraw_bounds ok _, issue, rfl,
    step_start_none ok hr c cs, rfl, rfl, step_failed ok c pin cs, rfl, rfl, rfl, rfl, rfl, rfl, rfl, rfl⟩

/-- Settles O41: the four steps of a successful INIT and the two of a failed one; after DRIVELOW every event is past. -/
theorem initTiming : Obligations.InitTiming := by
  intro s pin inv may
  have issue := exec_init_issued may pin
  obtain ⟨ok, -⟩ := may
  have ovh := Config.ovhDraw_bounds ok
  refine ⟨fun r hr => ?_, fun hr => ?_⟩
  · exact ⟨_, _, _, _, _, _, ovh s.draws, ovh (s.draws + 1), ovh (s.draws + 2), ovh (s.draws + 3), issue,
      (steps_start_init ok hr).run_eq, State.initLow_trace s pin r, rfl, rfl, rfl, rfl,
      State.initLow_dir inv.dirWf pin r, State.initLow_port inv.portWf pin r,
      fun x hx => State.initLow_line inv.traceOk hr hx⟩
  · exact ⟨_, _, _, _, ovh s.draws, ovh (s.draws + 1), issue, (steps_start_none ok hr .init []).run_eq, rfl, rfl, rfl,
      rfl⟩

/-- Settles O43: the steps of a successful UPLOAD, the frame's by induction on its bits. -/
theorem uploadMicroOperations : Obligations.UploadMicroOperations := by
  intro s pin cs r may wf hr
  have issue := exec_upload_issued may pin cs
  obtain ⟨ok, -⟩ := may
  have ops := (steps_start_upload (cs := cs) ok wf hr).opsRun_eq
  rw [uploadOps_length] at ops
  exact ⟨_, _, issue, run_start_upload ok wf hr, ops, State.latchAndReturn_phase _,
    State.uploaded_result s pin cs r⟩

/-- Settles O44: the frame's writes and start cycles by induction on its bits, then the latch and the return. -/
theorem uploadTimeline : Obligations.UploadTimeline := by
  intro s pin cs r may wf hr c v
  have issue := exec_upload_issued may pin cs
  obtain ⟨ok, -⟩ := may
  obtain ⟨k, time⟩ := State.uploaded_t s pin cs r
  have events : (frameEvents c r v (s.uploadStart pin cs r) (wireBits cs)).length = 48 * cs.length := by
    rw [frameEvents_length, wireBits_length]
    omega
  exact ⟨_, s.uploaded pin cs r, s.uploadStart pin cs r, _, _, _, issue, run_start_upload ok wf hr,
    State.frameStarts_uploadStart s pin cs r ok, Config.ovhDraw_bounds ok k,
    Config.delayDraw_bounds c c.latchUs (k + 1), Config.ovhDraw_bounds ok (k + 2),
    State.uploaded_trace s pin cs r wf, events, time, State.uploaded_results s pin cs r,
    State.latchAndReturn_phase _, State.latchAndReturn_res _, State.uploaded_result s pin cs r,
    State.uploaded_port s pin cs r wf,
    State.uploaded_dir s pin cs r, State.uploaded_launch s pin cs r, State.uploaded_input s pin cs r⟩

/-- Settles O7: a script whose words decode begins with a word, and its step runs what they decode to. -/
theorem stepRunsDecodedCommand : Obligations.StepRunsDecodedCommand :=
  fun _ _ _ ok hp hn hd => (step_host ok hp hn).trans (hostStep_command hd)

/-- Settles O11: the handle is the identifier, zero-extended. -/
theorem newDeliversHandle : Obligations.NewDeliversHandle :=
  fun _ pin may => ⟨handleWord pin, handleWord_toNat pin, exec_new_issued may pin⟩

/-- Settles O12: the issue of both commands, field by field. -/
theorem commandIssueLatchesOperands : Obligations.CommandIssueLatchesOperands :=
  fun _ pin cs may => ⟨exec_init_issued may pin, exec_upload_issued may pin cs⟩

/-- Settles O13: all three commands are an issue, which asks for Idle first and for the premise next. -/
theorem commandsNeedIdleAndPremise : Obligations.CommandsNeedIdleAndPremise := by
  intro s i command
  obtain ⟨f, hf⟩ := exec_command command s
  rw [hf]
  exact ⟨State.issue_busy f, State.issue_preemption f⟩

/-- Settles O24: one lemma per outcome of RESOLVE; the first position is never past the buffer. -/
theorem resolveOutcome : Obligations.ResolveOutcome := by
  intro s ok
  refine ⟨_, Config.ovhDraw_bounds ok s.draws, exec_resolve_none, fun r hr hc => exec_resolve_init hr hc,
    fun r hr hc => ?_⟩
  obtain ⟨p, op, hs⟩ := exists_sched (buf := s.buf) (p := Position.start) (Nat.zero_le _)
  exact ⟨p, op, hs, (exec_resolve_upload hr hc).trans (State.schedule_some hs)⟩

/-- Settles O25: RESOLVE of NEW schedules nothing. -/
theorem resolveOfNewCommand : Obligations.ResolveOfNewCommand :=
  fun s _ ok hr hc => ⟨_, Config.ovhDraw_bounds ok s.draws, exec_resolve_new hr hc⟩

/-- Settles O26: with a resource one write of the direction bank, after the overhead. -/
theorem dirsetSetsOutput : Obligations.DirsetSetsOutput :=
  fun s => ⟨fun _ hr ok wf => ⟨_, _, Config.ovhDraw_bounds ok s.draws,
      (exec_dirset s).trans (State.withRes_some _ hr), fun a => Memory.read_write _ a _ wf⟩,
    fun hr => (exec_dirset s).trans (State.withRes_none _ hr)⟩

/-- Settles O27: with a resource one write of the port bank, after the overhead. -/
theorem drivelowDrivesLow : Obligations.DrivelowDrivesLow :=
  fun s => ⟨fun _ hr ok wf => ⟨_, _, Config.ovhDraw_bounds ok s.draws,
      (exec_drivelow s).trans (State.withRes_some _ hr), fun a => Memory.read_write _ a _ wf⟩,
    fun hr => (exec_drivelow s).trans (State.withRes_none _ hr)⟩

/-- Settles O28: the end of a command after one overhead, the flag delivered as a word. -/
theorem returnDeliversResult : Obligations.ReturnDeliversResult := by
  intro s ok
  refine ⟨_, Config.ovhDraw_bounds ok s.draws, ?_⟩
  rw [← resultWord_eq]
  exact exec_ret s

end Sys2Proof.Claims

/-! PROOFS. The statements about the serializer: the bits of a frame and the position that walks them, what MARGIN and
LATCH take, and what the line shows of one frame and between two. -/

namespace Sys2Proof

/-! ### The conversion of microseconds (R9) -/

theorem Config.usToCyc_mono (c : Config) {us us' : Nat} (h : us ≤ us') : c.usToCyc us ≤ c.usToCyc us' :=
  (ceilDiv_le_iff (by decide)).2 <|
    Nat.le_trans (Nat.mul_le_mul_right c.fCpuHz h) ((ceilDiv_le_iff (by decide)).1 (Nat.le_refl (c.usToCyc us')))

/-- R8 has `LATCH_US` at least 50. -/
theorem Config.usToCyc_latchUs {c : Config} (ok : c.ok = true) : c.usToCyc 50 ≤ c.usToCyc c.latchUs := by
  obtain ⟨-, -, -, -, -, latch, -⟩ := (Config.ok_iff c).1 ok
  exact c.usToCyc_mono latch

end Sys2Proof

namespace Sys2Proof.Machine

/-! ### The position and the bits of a frame (R151, R152, R155, R157) -/

/-- Bit `24 i + 8 j + (7 - k)` of a frame is bit `k` of wire byte `j` of colour `i`. -/
theorem wireBits_getElem?_wireByte {buf : List Color} {i : Nat} (h : i < buf.length) (j : Fin 3) (k : Fin 8) :
    (wireBits buf)[24 * i + 8 * j + (7 - k)]? = some ((wireByte buf[i] j).getLsbD k) := by
  rw [← wireBit_eq]
  exact wireBits_getElem?_index (p := ⟨i, j, k⟩) h

/-- A position's index lies among the 24 of its colour. -/
theorem Position.index_bounds (p : Position) : 24 * p.ci ≤ p.index ∧ p.index < 24 * (p.ci + 1) := by
  have := p.bi.isLt
  unfold Position.index
  omega

/-- The pulses still to send are the bits of the frame from the position's index on. -/
theorem Position.pulsesLeft_eq (n : Nat) (p : Position) : p.pulsesLeft n = 24 * n - p.index := by
  unfold Position.pulsesLeft Position.index
  omega

theorem emitOf_code : ∀ b, (emitOf b).code = 0b00#2 ++ BitVec.ofBool b := by decide

/-! ### An UPLOAD without colours (R156) -/

/-- Without a bit to send no register is written, so no bank has to be in canonical form. -/
theorem steps_start_upload_nil {s : State} {pin : PinId} {r : PinRes} (ok : s.launch.cfg.ok = true)
    (hr : s.launch.cfg.resolve pin = some r) :
    Steps (s.start .upload pin []) [.resolve, .latch, .ret] (s.uploaded pin [] r) :=
  .cons rfl (step_start_upload ok hr) <| steps_latchAndReturn (s := s.uploadSent pin [] r) ok rfl rfl

/-- After the start of its latch an UPLOAD takes at least two overheads and the latch delay. -/
theorem State.uploaded_t_ge (s : State) (pin : PinId) (cs : List Color) (r : PinRes) (ok : s.launch.cfg.ok = true) :
    s.uploadStart pin cs r (24 * cs.length) + 2 * s.launch.cfg.ovhMin + s.launch.cfg.usToCyc s.launch.cfg.latchUs ≤
      (s.uploaded pin cs r).t := by
  obtain ⟨k, time⟩ := State.uploaded_t s pin cs r
  have ovh := Config.ovhDraw_bounds ok k
  have ovh' := Config.ovhDraw_bounds ok (k + 2)
  have delay := Config.delayDraw_bounds s.launch.cfg s.launch.cfg.latchUs (k + 1)
  omega

/-! ### The start cycles of a frame (R132, R160) -/

/-- Each of the `n` pulses ends before the next one, or the latch, begins. -/
def Spaced (c : Config) (n : Nat) (start : Nat → Nat) : Prop := ∀ j < n, start j + c.bitCyc ≤ start (j + 1)

theorem spaced_of_frameStarts {c : Config} {t n : Nat} {start : Nat → Nat} (h : Claims.FrameStarts c t n start) :
    Spaced c n start := by
  intro j hj
  obtain ⟨o, d, -, -, next⟩ := h.2 j hj
  omega

theorem Spaced.tail {c : Config} {n : Nat} {start : Nat → Nat} (h : Spaced c (n + 1) start) :
    Spaced c n fun j => start (j + 1) :=
  fun j hj => h (j + 1) (Nat.succ_lt_succ hj)

theorem Spaced.first_le {c : Config} {n j : Nat} {start : Nat → Nat} (h : Spaced c n start) (hj : j ≤ n) :
    start 0 ≤ start j := by
  induction j with
  | zero => exact Nat.le_refl _
  | succ j ih => exact Nat.le_trans (ih (Nat.le_of_succ_le hj)) (Nat.le_trans (Nat.le_add_right _ _) (h j hj))

theorem highTime_bounds {c : Config} (ok : c.ok = true) (b : Bool) :
    0 < Claims.highTime c b ∧ Claims.highTime c b ≤ c.t1hCyc ∧ Claims.highTime c b < c.bitCyc := by
  obtain ⟨-, h0, h01, h1b, -⟩ := (Config.ok_iff c).1 ok
  cases b
  · exact ⟨h0, Nat.le_of_lt h01, Nat.lt_trans h01 h1b⟩
  · exact ⟨Nat.lt_trans h0 h01, Nat.le_refl _, h1b⟩

/-! ### The port register during a frame (R37, R132) -/

section
variable {c : Config} {r : PinRes} {u v : Byte} {start : Nat → Nat} {x : Nat}

theorem regAt_pulseEvents_during {t : Nat} {b : Bool} (h : t ≤ x) (h' : x < t + Claims.highTime c b) :
    regAt .port r.port x u (Claims.pulseEvents c r v t b) = v ||| r.mask := by
  simp [Claims.pulseEvents, regAt, h, Nat.not_le_of_lt h']

theorem regAt_pulseEvents_after {t : Nat} {b : Bool} (h : t + Claims.highTime c b ≤ x) :
    regAt .port r.port x u (Claims.pulseEvents c r v t b) = v &&& ~~~r.mask := by
  simp [Claims.pulseEvents, regAt, h]

/-- Both writes of a pulse are port writes, none before its start. -/
theorem pulseEvents_reg_time {e : Event} {t : Nat} {b : Bool} (h : e ∈ Claims.pulseEvents c r v t b) :
    e.reg = .port ∧ t ≤ e.time := by
  simp only [Claims.pulseEvents, List.mem_cons, List.not_mem_nil, or_false] at h
  rcases h with rfl | rfl
  · exact ⟨rfl, Nat.le_refl _⟩
  · exact ⟨rfl, Nat.le_add_right _ _⟩

theorem frameEvents_reg {e : Event} {w : List Bool} (h : e ∈ Claims.frameEvents c r v start w) : e.reg = .port := by
  obtain ⟨p, -, he⟩ := List.mem_flatMap.1 h
  exact (pulseEvents_reg_time he).1

/-- No write of a frame comes before its first pulse. -/
theorem Spaced.le_time {e : Event} {w : List Bool} (h : Spaced c w.length start)
    (he : e ∈ Claims.frameEvents c r v start w) : start 0 ≤ e.time := by
  induction w generalizing start with
  | nil => cases he
  | cons b w ih =>
    rw [frameEvents_cons, List.mem_append] at he
    rcases he with he | he
    · exact (pulseEvents_reg_time he).2
    · exact Nat.le_trans (h.first_le (j := 1) (Nat.le_add_left 1 w.length)) (ih h.tail he)

theorem Spaced.regAt_before {w : List Bool} (h : Spaced c w.length start) (hx : x < start 0) :
    regAt .port r.port x u (Claims.frameEvents c r v start w) = u :=
  regAt_skip fun _ he counts => Nat.not_le_of_lt hx (Nat.le_trans (h.le_time he) counts.2.2)

theorem frameEvents_concat (w : List Bool) (b : Bool) :
    Claims.frameEvents c r v start (w ++ [b]) =
      Claims.frameEvents c r v start w ++ Claims.pulseEvents c r v (start w.length) b := by
  simp [Claims.frameEvents, List.zipIdx_append]

/-- From the last falling edge of a frame on its pin is low, whatever stood there before. -/
theorem regAt_frameEvents_after {w : List Bool} {b : Bool} (hb : w.getLast? = some b)
    (h : start (w.length - 1) + Claims.highTime c b ≤ x) :
    regAt .port r.port x u (Claims.frameEvents c r v start w) = v &&& ~~~r.mask := by
  obtain ⟨w, rfl⟩ := List.getLast?_eq_some_iff.1 hb
  rw [List.length_append, List.length_singleton, Nat.add_sub_cancel] at h
  rw [frameEvents_concat, regAt_append, regAt_pulseEvents_after h]

end

/-! ### Levels over an interval of cycles (R161) -/

/-- A level at each of the cycles `x, …, y - 1`. -/
def levels (f : Nat → Bool) (x y : Nat) : List Bool := (List.range' x (y - x)).map f

/-- The pulses seen from cycle `x` up to `y` are the runs of High among the levels. -/
theorem State.pulses_eq (s : State) (a : PortAddr) (m : Byte) (x y : Nat) :
    s.pulses a m x (y - x) = trueRuns 0 (levels (fun i => s.line a m i == .high) x y) := rfl

theorem levels_append (f : Nat → Bool) {x y z : Nat} (hxy : x ≤ y) (hyz : y ≤ z) :
    levels f x z = levels f x y ++ levels f y z := by
  rw [levels, levels, levels, ← List.map_append, show z - x = (y - x) + (z - y) by omega, ← List.range'_append_1,
    Nat.add_sub_cancel' hxy]

theorem levels_congr {f g : Nat → Bool} {x y : Nat} (h : ∀ i, x ≤ i → i < y → f i = g i) :
    levels f x y = levels g x y := by
  refine List.map_congr_left fun i hi => ?_
  have := List.mem_range'_1.1 hi
  exact h i (by omega) (by omega)

theorem levels_eq_replicate {f : Nat → Bool} {x y : Nat} {b : Bool} (h : ∀ i, x ≤ i → i < y → f i = b) :
    levels f x y = List.replicate (y - x) b := by
  rw [levels_congr (g := fun _ => b) h, levels, List.map_const', List.length_range']

/-- A run of High that ends counts with its whole length. -/
theorem trueRuns_pulse {h k : Nat} (hh : 0 < h) (hk : 0 < k) (l : List Bool) :
    trueRuns 0 (List.replicate h true ++ (List.replicate k false ++ l)) = h :: trueRuns 0 l := by
  obtain ⟨h, rfl⟩ := Nat.exists_eq_succ_of_ne_zero (Nat.ne_of_gt hh)
  obtain ⟨k, rfl⟩ := Nat.exists_eq_succ_of_ne_zero (Nat.ne_of_gt hk)
  rw [trueRuns_true, Nat.zero_add, List.replicate_succ, List.cons_append, trueRuns, trueRuns_false]

/-! ### The pulses of a frame on its pin (R161, R162) -/

/-- Is the pin's port bit 1 at cycle `x` of a frame, the port holding `v` before it? -/
def frameHigh (c : Config) (r : PinRes) (v : Byte) (start : Nat → Nat) (w : List Bool) (x : Nat) : Bool :=
  regAt .port r.port x v (Claims.frameEvents c r v start w) &&& r.mask != 0

section
variable {c : Config} {r : PinRes} {v : Byte} {start : Nat → Nat} {w : List Bool} {b : Bool} {x : Nat}

theorem frameHigh_before (h : Spaced c w.length start) (hv : v &&& r.mask = 0) (hx : x < start 0) :
    frameHigh c r v start w x = false := by
  rw [frameHigh, h.regAt_before hx, hv]
  rfl

theorem frameHigh_during (h : Spaced c (b :: w).length start) (ok : c.ok = true) (hm : r.mask ≠ 0)
    (hx : start 0 ≤ x) (hx' : x < start 0 + Claims.highTime c b) : frameHigh c r v start (b :: w) x = true := by
  have first := h 0 (Nat.succ_pos _)
  have bounds := highTime_bounds ok b
  rw [frameHigh, frameEvents_cons, regAt_append, regAt_pulseEvents_during hx hx',
    h.tail.regAt_before (show x < start (0 + 1) by omega), or_and_mask]
  exact bne_iff_ne.2 hm

/-- After its first pulse a frame is the frame of the other bits, from a cleared pin. -/
theorem frameHigh_after (hx : start 0 + Claims.highTime c b ≤ x) :
    frameHigh c r v start (b :: w) x = frameHigh c r (v &&& ~~~r.mask) (fun j => start (j + 1)) w x := by
  rw [frameHigh, frameHigh, frameEvents_cons, regAt_append, regAt_pulseEvents_after hx, frameEvents_cleared]

/-- The first pulse, the Low up to the second, and the frame of the other bits from there. -/
theorem levels_frameHigh_cons {y : Nat} (h : Spaced c (b :: w).length start) (ok : c.ok = true) (hm : r.mask ≠ 0)
    (hy : start 1 ≤ y) :
    levels (frameHigh c r v start (b :: w)) (start 0) y =
      List.replicate (Claims.highTime c b) true ++
        (List.replicate (start 1 - (start 0 + Claims.highTime c b)) false ++
          levels (frameHigh c r (v &&& ~~~r.mask) (fun j => start (j + 1)) w) (start 1) y) := by
  have first : start 0 + c.bitCyc ≤ start 1 := h 0 (Nat.succ_pos _)
  have bounds := highTime_bounds ok b
  have fall : start 0 + Claims.highTime c b ≤ start 1 := by omega
  have pulse := levels_eq_replicate fun i hi hi' => frameHigh_during (v := v) h ok hm hi hi'
  have low : levels (frameHigh c r v start (b :: w)) (start 0 + Claims.highTime c b) (start 1) =
      List.replicate (start 1 - (start 0 + Claims.highTime c b)) false :=
    levels_eq_replicate fun i hi hi' => (frameHigh_after hi).trans
      (frameHigh_before h.tail (and_not_and_mask _ _) hi')
  have rest := levels_congr (y := y) fun i (hi : start 1 ≤ i) _ =>
    frameHigh_after (r := r) (v := v) (w := w) (Nat.le_trans fall hi)
  rw [levels_append _ (Nat.le_add_right _ _) (Nat.le_trans fall hy), levels_append _ fall hy, pulse, low, rest,
    Nat.add_sub_cancel_left]

/-- From its first pulse on a frame shows a pulse of its high time for each bit. -/
theorem trueRuns_frameHigh {y : Nat} (h : Spaced c w.length start) (ok : c.ok = true) (hm : r.mask ≠ 0)
    (hv : v &&& r.mask = 0) (hy : start w.length ≤ y) :
    trueRuns 0 (levels (frameHigh c r v start w) (start 0) y) = w.map (Claims.highTime c) := by
  induction w generalizing start v with
  | nil =>
    have low : ∀ x, frameHigh c r v start [] x = false := fun _ => bne_eq_false_iff_eq.2 hv
    rw [levels_eq_replicate fun x _ _ => low x, ← List.append_nil (List.replicate _ _), trueRuns_false]
    rfl
  | cons b w ih =>
    have first : start 0 + c.bitCyc ≤ start 1 := h 0 (Nat.succ_pos _)
    have bounds := highTime_bounds ok b
    have next : start 1 ≤ y := Nat.le_trans (h.tail.first_le (Nat.le_refl _)) hy
    rw [levels_frameHigh_cons h ok hm next, trueRuns_pulse bounds.1 (by omega)]
    exact congrArg _ (ih h.tail (and_not_and_mask _ _) hy)

/-- Cycles before the first pulse add none. -/
theorem trueRuns_frameHigh_of_le {x0 y : Nat} (h : Spaced c w.length start) (ok : c.ok = true) (hm : r.mask ≠ 0)
    (hv : v &&& r.mask = 0) (hx : x0 ≤ start 0) (hy : start w.length ≤ y) :
    trueRuns 0 (levels (frameHigh c r v start w) x0 y) = w.map (Claims.highTime c) := by
  rw [levels_append _ hx (Nat.le_trans (h.first_le (Nat.le_refl _)) hy),
    levels_eq_replicate fun i _ hi => frameHigh_before h hv hi, trueRuns_false, trueRuns_frameHigh h ok hm hv hy]

end

/-- Within half the distance of the two high times a pulse is told by the high time of its bit (R161). -/
theorem classify_highTime {c : Config} {tol : Nat} (h : 2 * tol < c.t1hCyc - c.t0hCyc) (b : Bool) :
    classify c tol (Claims.highTime c b) = some b := by
  cases b
  · simp [classify, Claims.highTime, within]
  · have far : ¬ c.t1hCyc ≤ c.t0hCyc + tol := by omega
    simp [classify, Claims.highTime, within, far]

/-! ### The line after more writes to the port bank (R37) -/

/-- On a driven pin, where the trace has grown by port writes alone, the line is what those writes make of the port. -/
theorem TraceOk.line_append {s s' : State} (ok : TraceOk s) (hl : s'.launch = s.launch) {evs : List Event}
    (ht : s'.trace = s.trace ++ evs) (port : ∀ e ∈ evs, e.reg = .port) {a : Nat} {m : Byte}
    (driven : Memory.read s.dir a &&& m ≠ 0) {x : Nat} (hx : s.t ≤ x) :
    s'.line a m x = if regAt .port a x (Memory.read s.port a) evs &&& m = 0 then .low else .high := by
  have past : ∀ e ∈ s.trace, e.time ≤ x := fun e he => Nat.le_trans (ok.tracePast e he) hx
  have dir : regAt .dir a x (Memory.read s.dir a) evs = Memory.read s.dir a :=
    regAt_skip fun e he counts => by simp [port e he] at counts
  rw [State.line, hl, ht, regAt_append, regAt_append, regAt_replay a x ok.launchDirWf past,
    regAt_replay a x ok.launchPortWf past, ← ok.dirTraced, ← ok.portTraced, dir, if_neg driven]

section
variable {s : State} {pin : PinId} {cs : List Color} {r : PinRes}

/-- During an UPLOAD on a driven pin the line is High where the frame's writes make its port bit 1. -/
theorem uploaded_line_eq_high (ok : TraceOk s) (driven : Memory.read s.dir r.port &&& r.mask ≠ 0) {x : Nat}
    (hx : s.t ≤ x) :
    ((s.uploaded pin cs r).line r.port r.mask x == .high) =
      frameHigh s.launch.cfg r (Memory.read s.port r.port) (s.uploadStart pin cs r) (wireBits cs) x := by
  rw [ok.line_append (State.uploaded_launch s pin cs r) (State.uploaded_trace s pin cs r ok.portWf)
    (fun _ he => frameEvents_reg he) driven hx, frameHigh]
  split
  case isTrue low => rw [low]; rfl
  case isFalse high => exact (bne_iff_ne.2 high).symm

/-- The starts of an UPLOAD, one for each bit of its frame, are a bit period apart. -/
theorem spaced_uploadStart (ok : s.launch.cfg.ok = true) :
    Spaced s.launch.cfg (wireBits cs).length (s.uploadStart pin cs r) := by
  rw [wireBits_length]
  exact spaced_of_frameStarts (State.frameStarts_uploadStart s pin cs r ok)

theorem le_uploadStart_zero (ok : s.launch.cfg.ok = true) :
    s.t + s.launch.cfg.ovhMin ≤ s.uploadStart pin cs r 0 := by
  obtain ⟨⟨o, ovh, first⟩, -⟩ := State.frameStarts_uploadStart s pin cs r ok
  omega

/-- An UPLOAD on a driven, low pin shows the pulses of its bits. -/
theorem uploaded_pulses (ok : TraceOk s) (hm : r.mask ≠ 0) (driven : Memory.read s.dir r.port &&& r.mask ≠ 0)
    (low : Memory.read s.port r.port &&& r.mask = 0) :
    (s.uploaded pin cs r).pulses r.port r.mask s.t ((s.uploaded pin cs r).t - s.t) =
      (wireBits cs).map (Claims.highTime s.launch.cfg) := by
  have first := le_uploadStart_zero (pin := pin) (cs := cs) (r := r) ok.cfgOk
  have last := State.uploaded_t_ge s pin cs r ok.cfgOk
  rw [← wireBits_length] at last
  rw [State.pulses_eq, levels_congr fun x hx _ => uploaded_line_eq_high ok driven hx]
  exact trueRuns_frameHigh_of_le (spaced_uploadStart ok.cfgOk) ok.cfgOk hm low (by omega) (by omega)

/-! ### Two frames (R159) -/

theorem uploaded_tick_launch (idle : Nat) : ((s.uploaded pin cs r).tick idle).launch = s.launch :=
  State.uploaded_launch s pin cs r

theorem mayIssue_uploaded_tick (may : Claims.MayIssue s) (idle : Nat) :
    Claims.MayIssue ((s.uploaded pin cs r).tick idle) := by
  obtain ⟨ok, -, premise⟩ := may
  refine ⟨?_, rfl, ?_⟩
  · rw [uploaded_tick_launch, ok]
  · rw [uploaded_tick_launch, premise]

theorem uploaded_portWf (wf : Memory.wf s.port) : Memory.wf (s.uploaded pin cs r).port := by
  rw [State.uploaded_port s pin cs r wf]
  split
  · exact wf
  · exact Memory.write_wf _ _ wf

/-- After a pulse the pin's bit is cleared, the port's others as before. -/
theorem read_uploaded_port (wf : Memory.wf s.port) (hcs : cs ≠ []) :
    Memory.read (s.uploaded pin cs r).port r.port = Memory.read s.port r.port &&& ~~~r.mask := by
  rw [State.uploaded_port s pin cs r wf, if_neg hcs, Memory.read_write_same _ _ wf]

/-- The writes of an UPLOAD, a wait and a second UPLOAD are the writes of the two frames. -/
theorem trace_two_uploads (wf : Memory.wf s.port) (hcs : cs ≠ []) (idle : Nat) (ds : List Color) :
    (((s.uploaded pin cs r).tick idle).uploaded pin ds r).trace = s.trace ++
      (Claims.frameEvents s.launch.cfg r (Memory.read s.port r.port) (s.uploadStart pin cs r) (wireBits cs) ++
        Claims.frameEvents s.launch.cfg r (Memory.read s.port r.port)
          (((s.uploaded pin cs r).tick idle).uploadStart pin ds r) (wireBits ds)) := by
  have wf' : Memory.wf ((s.uploaded pin cs r).tick idle).port := uploaded_portWf wf
  rw [State.uploaded_trace _ pin ds r wf', uploaded_tick_launch, State.tick_trace, State.tick_port,
    State.uploaded_trace s pin cs r wf, read_uploaded_port wf hcs, frameEvents_cleared, List.append_assoc]

/-- From the last falling edge to a next UPLOAD's first pulse: the rest of the bit period, MARGIN, LATCH, RETURN and the
next RESOLVE. -/
theorem lastFall_le_next_start (ok : s.launch.cfg.ok = true) (hcs : cs ≠ []) (b : Bool) (idle : Nat)
    (ds : List Color) :
    s.uploadStart pin cs r (24 * cs.length - 1) + Claims.highTime s.launch.cfg b +
        (s.launch.cfg.bitCyc - s.launch.cfg.t1hCyc) + 4 * s.launch.cfg.ovhMin +
        s.launch.cfg.usToCyc s.launch.cfg.marginUs + s.launch.cfg.usToCyc s.launch.cfg.latchUs ≤
      ((s.uploaded pin cs r).tick idle).uploadStart pin ds r 0 := by
  have pos : 0 < cs.length := List.length_pos_iff.2 hcs
  have high := highTime_bounds ok b
  obtain ⟨-, step⟩ := State.frameStarts_uploadStart s pin cs r ok
  obtain ⟨o, d, ovh, margin, last⟩ := step (24 * cs.length - 1) (by omega)
  rw [show 24 * cs.length - 1 + 1 = 24 * cs.length by omega] at last
  have back := State.uploaded_t_ge s pin cs r ok
  have next := le_uploadStart_zero (s := (s.uploaded pin cs r).tick idle) (pin := pin) (cs := ds) (r := r)
    (by rw [uploaded_tick_launch, ok])
  rw [uploaded_tick_launch, State.tick_t] at next
  omega

/-- From the last falling edge of one frame to the first pulse of the next the line is Low: the last write so far is the
clearing one. -/
theorem line_between_uploads (ok : TraceOk s) (hcs : cs ≠ []) (driven : Memory.read s.dir r.port &&& r.mask ≠ 0)
    {idle : Nat} {ds : List Color} {b : Bool} (hb : (wireBits cs).getLast? = some b) {x : Nat}
    (hx : s.uploadStart pin cs r (24 * cs.length - 1) + Claims.highTime s.launch.cfg b ≤ x)
    (hx' : x < ((s.uploaded pin cs r).tick idle).uploadStart pin ds r 0) :
    (((s.uploaded pin cs r).tick idle).uploaded pin ds r).line r.port r.mask x = .low := by
  have spaced := spaced_uploadStart (pin := pin) (cs := cs) (r := r) ok.cfgOk
  have spaced' := spaced_uploadStart (s := (s.uploaded pin cs r).tick idle) (pin := pin) (cs := ds) (r := r)
    (by rw [uploaded_tick_launch, ok.cfgOk])
  rw [uploaded_tick_launch] at spaced'
  rw [← wireBits_length] at hx
  have first := le_uploadStart_zero (pin := pin) (cs := cs) (r := r) ok.cfgOk
  have last := spaced.first_le (Nat.sub_le (wireBits cs).length 1)
  have launch : (((s.uploaded pin cs r).tick idle).uploaded pin ds r).launch = s.launch :=
    (State.uploaded_launch _ pin ds r).trans (uploaded_tick_launch idle)
  rw [ok.line_append launch (trace_two_uploads ok.portWf hcs idle ds)
      (fun _ he => (List.mem_append.1 he).elim frameEvents_reg frameEvents_reg) driven (by omega),
    regAt_append, regAt_frameEvents_after hb hx, spaced'.regAt_before hx', if_pos (and_not_and_mask _ _)]

end

end Sys2Proof.Machine

namespace Sys2Proof.Claims
open Sys2Proof Sys2Proof.Machine

/-- Settles O22: the bit at a position's index, for each of the three wire bytes. -/
theorem wireBitsOfFrame : Obligations.WireBitsOfFrame :=
  fun buf => ⟨wireBits_length buf, fun _ h k =>
    ⟨wireBits_getElem?_wireByte h 0 k, wireBits_getElem?_wireByte h 1 k, wireBits_getElem?_wireByte h 2 k⟩⟩

/-- Settles O23: the index grows by one, and what is left of the frame's `24 n` bits falls by one. -/
theorem advanceIsNextBit : Obligations.AdvanceIsNextBit := by
  intro n p
  have next := adv_index p
  have bounds := p.index_bounds
  refine ⟨next, fun inside => ⟨Nat.le_trans (adv_ci_le p) inside, ?_⟩, fun _ => ?_⟩
  · rw [Position.pulsesLeft_eq, Position.pulsesLeft_eq, next]
    omega
  · rw [Position.pulsesLeft_eq]
    omega

/-- Settles O45: the latch is scheduled at once, and neither it nor the return writes a register. -/
theorem emptyUploadIsLatchAlone : Obligations.EmptyUploadIsLatchAlone := by
  intro s pin r may hr
  have issue := exec_upload_issued may pin []
  obtain ⟨ok, -⟩ := may
  have steps := steps_start_upload_nil ok hr
  have duration : s.t + s.launch.cfg.usToCyc 50 ≤ (s.uploaded pin [] r).t := by
    have first := le_uploadStart_zero (pin := pin) (cs := []) (r := r) ok
    have rest := State.uploaded_t_ge s pin [] r ok
    have latch := Config.usToCyc_latchUs ok
    rw [List.length_nil, Nat.mul_zero] at rest
    omega
  exact ⟨_, s.uploaded pin [] r, issue, steps.run_eq, steps.opsRun_eq, rfl, rfl, rfl,
    State.uploaded_results s pin [] r, rfl, duration⟩

/-- Settles O47: the pulses have the high times of the bits, and each is told by its high time. -/
theorem frameLaw : Obligations.FrameLaw := by
  intro s pin cs r tol inv may hr output low htol
  have issue := exec_upload_issued may pin cs
  obtain ⟨ok, -⟩ := may
  have mask : r.mask ≠ 0 := mask_ne_zero (Config.resolve_popcount ok hr)
  have pulses := uploaded_pulses (pin := pin) (cs := cs) inv.traceOk mask (by rw [output]; exact mask) low
  refine ⟨_, s.uploaded pin cs r, issue, run_start_upload ok inv.portWf hr, State.latchAndReturn_phase _, ?_⟩
  rw [pulses, List.map_map]
  exact List.map_congr_left fun b _ => classify_highTime htol b

/-- Settles O48: the second UPLOAD is issued from the state the first has left, its pin cleared; between the frames no
write happens. -/
theorem framesAreSeparated : Obligations.FramesAreSeparated := by
  intro s pin cs ds r idle inv may hr output hcs hds c v
  have issue := exec_upload_issued may pin cs
  have may' := mayIssue_uploaded_tick (pin := pin) (cs := cs) (r := r) may idle
  have issue' := exec_upload_issued may' pin ds
  obtain ⟨ok, -⟩ := may
  obtain ⟨ok', -⟩ := may'
  have hr' : ((s.uploaded pin cs r).tick idle).launch.cfg.resolve pin = some r := by rw [uploaded_tick_launch, hr]
  have mask : r.mask ≠ 0 := mask_ne_zero (Config.resolve_popcount ok hr)
  have driven : Memory.read s.dir r.port &&& r.mask ≠ 0 := by rw [output]; exact mask
  have trace := trace_two_uploads (pin := pin) (r := r) inv.portWf hcs idle ds
  rw [← List.append_assoc] at trace
  have last := List.getLast?_eq_some_getLast (mt wireBits_eq_nil.1 hcs)
  exact ⟨_, s.uploaded pin cs r, _, ((s.uploaded pin cs r).tick idle).uploaded pin ds r, _, _, issue,
    run_start_upload ok inv.portWf hr, issue', run_start_upload ok' (uploaded_portWf inv.portWf) hr', trace, _, _, last,
    rfl, lastFall_le_next_start ok hcs _ idle ds, Config.usToCyc_latchUs ok,
    fun _ hx hx' => line_between_uploads inv.traceOk hcs driven last hx hx'⟩

/-- Settles O18: MARGIN draws twice, and up to the end of the buffer `sched` has an answer. -/
theorem marginAdvances : Obligations.MarginAdvances := by
  intro s ok inside
  obtain ⟨p, op, hs⟩ := exists_sched inside
  exact ⟨_, _, p, op, Config.ovhDraw_bounds ok s.draws, Config.delayDraw_bounds _ _ (s.draws + 1), hs,
    (exec_margin s).trans (State.schedule_some hs)⟩

/-- Settles O20: LATCH draws twice, and R8 has the latch at 50 microseconds or more. -/
theorem latchWaits : Obligations.LatchWaits := by
  intro s ok
  have delay := Config.delayDraw_bounds s.launch.cfg s.launch.cfg.latchUs (s.draws + 1)
  have least := Nat.le_trans (Config.usToCyc_latchUs ok) delay.1
  exact ⟨_, _, Config.ovhDraw_bounds ok s.draws, delay, least, exec_latch s⟩

/-- Settles O21: the three places a position can have. -/
theorem scheduleOfPosition : Obligations.ScheduleOfPosition := by
  intro buf p
  refine ⟨sched_done, fun inside => ⟨_, sched_bit inside, ?_⟩, sched_outside⟩
  rw [emitOf_code, wireBit_eq]

end Sys2Proof.Claims

/-! PROOFS. The statement about the exceptions: no state that meets the invariant faults, and a busy block steps. -/

namespace Sys2Proof.Claims
open Sys2Proof Sys2Proof.Machine

/-- Settles O35: a busy block's scheduled micro-operation finds its resource and its bit, and the host's step, which is
the Idle block's, has no fault. -/
theorem busyBlockNeverSticks : Obligations.BusyBlockNeverSticks :=
  fun _ h => ⟨h.stepsWithoutFault, h.exists_step⟩

end Sys2Proof.Claims

/-! PROOFS. The statements about the pulse INIT makes of a port bit that was 1, and about how long a command blocks the
caller. -/

namespace Sys2Proof.Machine

/-! ### The line between the two writes of INIT (R204) -/

/-- A write that has not happened yet does not count. -/
theorem regAt_later {r : GpioReg} {a x : Nat} {v : Byte} {e : Event} (h : x < e.time) : regAt r a x v [e] = v := by
  have future : ¬ (e.reg = r ∧ e.addr = a ∧ e.time ≤ x) := fun counts => Nat.not_le_of_lt h counts.2.2
  rw [regAt, if_neg future, regAt]

section
variable {s : State} {pin : PinId} {r : PinRes}

theorem TraceOk.initOutput (ok : TraceOk s) (pin : PinId) (r : PinRes) : TraceOk (s.initOutput pin r) := by
  have resolved : TraceOk (s.initResolved pin r) := ok.of_eq rfl rfl rfl rfl (Nat.le_add_right s.t _)
  exact (resolved.takeOvh.writeDir ..).of_eq rfl rfl rfl rfl (Nat.le_refl _)

theorem State.initOutput_dir (wf : Memory.wf s.dir) (pin : PinId) (r : PinRes) :
    Memory.read (s.initOutput pin r).dir r.port &&& r.mask = r.mask :=
  State.initLow_dir wf pin r

/-- Before DRIVELOW has written, the pin is an output that shows its port bit as INIT found it. -/
theorem State.initLow_line_before (ok : TraceOk s) (hm : r.mask ≠ 0) {x : Nat} (hx : (s.initOutput pin r).t ≤ x)
    (hx' : x < (s.initLow pin r).t) :
    (s.initLow pin r).takeOvh.finish.line r.port r.mask x =
      if Memory.read s.port r.port &&& r.mask = 0 then .low else .high := by
  have driven : Memory.read (s.initOutput pin r).dir r.port &&& r.mask ≠ 0 := by
    rw [State.initOutput_dir ok.dirWf]
    exact hm
  have line := (ok.initOutput pin r).line_append (s' := (s.initLow pin r).takeOvh.finish)
    (evs := [⟨(s.initLow pin r).t, .block, .port, r.port, Memory.read s.port r.port &&& ~~~r.mask⟩]) rfl rfl
    (fun _ he => by rw [List.mem_singleton.1 he]) driven hx
  rw [regAt_later hx'] at line
  exact line

end

/-! ### How long a frame and an UPLOAD take (R212) -/

/-- Each pulse of a frame, with its MARGIN, takes a bit period and two draws within their bounds. -/
theorem frameStarts_bounds {c : Config} {t n : Nat} {start : Nat → Nat} (h : Claims.FrameStarts c t n start) {j : Nat}
    (hj : j ≤ n) :
    t + c.ovhMin + j * (c.bitCyc + c.ovhMin + c.usToCyc c.marginUs) ≤ start j ∧
      start j ≤ t + c.ovhMax + j * (c.bitCyc + c.ovhMax + c.usToCyc c.marginUs + c.delayOvhMax) := by
  obtain ⟨⟨o, ovh, first⟩, next⟩ := h
  induction j with
  | zero => omega
  | succ j ih =>
    have before := ih (Nat.le_of_succ_le hj)
    obtain ⟨o', d, ovh', margin, step⟩ := next j hj
    rw [Nat.succ_mul, Nat.succ_mul]
    omega

section
variable (s : State) (pin : PinId) (cs : List Color) (r : PinRes)

/-- After the start of its latch an UPLOAD takes at most two overheads and the longest latch delay. -/
theorem State.uploaded_t_le (ok : s.launch.cfg.ok = true) :
    (s.uploaded pin cs r).t ≤ s.uploadStart pin cs r (24 * cs.length) + 2 * s.launch.cfg.ovhMax +
      s.launch.cfg.usToCyc s.launch.cfg.latchUs + s.launch.cfg.delayOvhMax := by
  obtain ⟨k, time⟩ := State.uploaded_t s pin cs r
  have ovh := Config.ovhDraw_bounds ok k
  have ovh' := Config.ovhDraw_bounds ok (k + 2)
  have delay := Config.delayDraw_bounds s.launch.cfg s.launch.cfg.latchUs (k + 1)
  omega

theorem State.uploaded_duration (ok : s.launch.cfg.ok = true) :
    let c := s.launch.cfg
    s.t + 2 * c.ovhMin + 24 * cs.length * (c.bitCyc + c.ovhMin + c.usToCyc c.marginUs) + c.ovhMin +
        c.usToCyc c.latchUs ≤ (s.uploaded pin cs r).t ∧
      (s.uploaded pin cs r).t ≤ s.t + 2 * c.ovhMax +
        24 * cs.length * (c.bitCyc + c.ovhMax + c.usToCyc c.marginUs + c.delayOvhMax) + c.ovhMax +
        c.usToCyc c.latchUs + c.delayOvhMax := by
  dsimp only
  have frame := frameStarts_bounds (State.frameStarts_uploadStart s pin cs r ok) (Nat.le_refl _)
  have least := State.uploaded_t_ge s pin cs r ok
  have most := State.uploaded_t_le s pin cs r ok
  omega

/-! ### How long INIT and a failed command take (R212) -/

theorem State.init_duration (ok : s.launch.cfg.ok = true) :
    s.t + 4 * s.launch.cfg.ovhMin ≤ (s.initLow pin r).takeOvh.finish.t ∧
      (s.initLow pin r).takeOvh.finish.t ≤ s.t + 4 * s.launch.cfg.ovhMax := by
  have ovh := Config.ovhDraw_bounds ok
  have time : (s.initLow pin r).takeOvh.finish.t = s.t + s.launch.cfg.ovhDraw s.draws +
      s.launch.cfg.ovhDraw (s.draws + 1) + s.launch.cfg.ovhDraw (s.draws + 2) +
      s.launch.cfg.ovhDraw (s.draws + 3) := rfl
  have resolve := ovh s.draws
  have dirset := ovh (s.draws + 1)
  have drivelow := ovh (s.draws + 2)
  have ret := ovh (s.draws + 3)
  omega

theorem State.failed_duration (ok : s.launch.cfg.ok = true) (c : Command) :
    s.t + 2 * s.launch.cfg.ovhMin ≤ (s.failed c pin cs).takeOvh.finish.t ∧
      (s.failed c pin cs).takeOvh.finish.t ≤ s.t + 2 * s.launch.cfg.ovhMax := by
  have time : (s.failed c pin cs).takeOvh.finish.t =
      s.t + s.launch.cfg.ovhDraw s.draws + s.launch.cfg.ovhDraw (s.draws + 1) := rfl
  have resolve := Config.ovhDraw_bounds ok s.draws
  have ret := Config.ovhDraw_bounds ok (s.draws + 1)
  omega

end

end Sys2Proof.Machine

namespace Sys2Proof.Claims
open Sys2Proof Sys2Proof.Machine

/-- Settles O42: DIRSET makes the pin an output while its port bit is still 1, and DRIVELOW clears that bit one overhead
later. -/
theorem initGlitch : Obligations.InitGlitch := by
  intro s pin r inv may hr high
  have issue := exec_init_issued may pin
  obtain ⟨ok, -⟩ := may
  have mask : r.mask ≠ 0 := mask_ne_zero (Config.resolve_popcount ok hr)
  refine ⟨_, _, _, _, _, issue, (steps_start_init ok hr).run_eq, State.initLow_trace s pin r, rfl, rfl,
    Config.ovhDraw_bounds ok (s.draws + 2), rfl, fun x hx hx' => ?_⟩
  rw [State.initLow_line_before inv.traceOk mask hx hx', high, if_neg mask]

/-- Settles O46: the draws of each micro-operation within their bounds, those of a frame by induction on its pulses. -/
theorem commandDurations : Obligations.CommandDurations := by
  intro s pin cs may wf c
  have init := exec_init_issued may pin
  have upload := exec_upload_issued may pin cs
  obtain ⟨ok, -⟩ := may
  refine ⟨fun r hr => ⟨?_, ?_⟩, fun hr i hi => ?_⟩
  · exact ⟨_, _, upload, run_start_upload ok wf hr, State.latchAndReturn_phase _,
      State.uploaded_duration s pin cs r ok⟩
  · exact ⟨_, _, init, (steps_start_init ok hr).run_eq, rfl, State.init_duration s pin r ok⟩
  · rcases hi with rfl | rfl
    · exact ⟨_, _, init, (steps_start_none ok hr .init []).run_eq, rfl, State.failed_duration s pin [] ok .init⟩
    · exact ⟨_, _, upload, (steps_start_none ok hr .upload cs).run_eq, rfl,
        State.failed_duration s pin cs ok .upload⟩

end Sys2Proof.Claims
